-- ==== Sys2Proof/Word.lean ====
section
/-! DEFINITION. The widths of the hardware's values (00_scope.md R5, R7): all unsigned, bit 0 least significant. -/

namespace Sys2Proof

/-- One bit (R7). -/
abbrev Bit := BitVec 1

/-- A parity triple or a syndrome, `{p2, p1, p0}` with p2 at bit 2 (30_encoding.md R39). -/
abbrev Par := BitVec 3

/-- A nibble, `d3 d2 d1 d0` with d3 at bit 3 (30_encoding.md R37). -/
abbrev Nib := BitVec 4

/-- A source byte, a codeword byte or an output byte (30_encoding.md R36, R38). -/
abbrev Byte := BitVec 8

end Sys2Proof
end

