-- ==== Sys2Proof/Config.lean ====
section
/-! DEFINITION. The parameters the source leaves to the implementation (00_scope.md R6), and the model's free value. -/

namespace Sys2Proof

/-- `ODD_TAIL_POLICY` (R6, 42_decoder.md R76, 92_eei_decisions.md D7): what a decoder pull does when its first read
delivers a byte and its second answers End. `fault` is the spec's choice. -/
inductive OddTailPolicy where
  | fault
  | discard
deriving DecidableEq, Repr

/-- `CODEC_VARIANT` (92_eei_decisions.md D10 and its appendix): the codeword layout together with the flip mask.
`literal` is the normative value (30_encoding.md R38, 42_decoder.md R73); `low7` is the appendix's hypothesis. -/
inductive CodecVariant where
  | literal
  | low7
deriving DecidableEq, Repr

/-- One choice of the parameters. -/
structure Config where
  oddTail : OddTailPolicy
  variant : CodecVariant
deriving DecidableEq, Repr

/-- The values this spec fixes (R6). -/
def Config.normative : Config := { oddTail := .fault, variant := .literal }

/-- FREE VALUE: the byte that the endless stream number `stream` delivers at a position (20_memory.md R21: a source that
gives no terminal answer; log 14). It has no body, so what is proved holds whatever the bytes are. -/
opaque Config.endlessByte (stream position : Nat) : Byte

end Sys2Proof
end

