-- ==== Sys2Proof/Machine/Operands.lean ====
section
/-! DEFINITION. Assembly of operands (30_encoding.md R41): every operand is a fixed selection of bits. -/

namespace Sys2Proof.Machine

/-- `v[i]` as a one-bit value (00_scope.md R7). -/
def bit {w : Nat} (v : BitVec w) (i : Nat) : Bit := v.extractLsb' i 1

/-- `{b2, b1, b0}`: concatenation, leftmost most significant (R7). -/
def word3 (b2 b1 b0 : Bit) : Par := b2 ++ b1 ++ b0

/-- `{b3, b2, b1, b0}` (R7). -/
def word4 (b3 b2 b1 b0 : Bit) : Nib := b3 ++ b2 ++ b1 ++ b0

/-- `{b7, ..., b0}` (R7). -/
def word8 (b7 b6 b5 b4 b3 b2 b1 b0 : Bit) : Byte := b7 ++ b6 ++ b5 ++ b4 ++ b3 ++ b2 ++ b1 ++ b0

/-- `hi(x) = x[7:4]` (30_encoding.md R36). -/
def nibHi (x : Byte) : Nib := x.extractLsb' 4 4

/-- `lo(x) = x[3:0]` (30_encoding.md R36). -/
def nibLo (x : Byte) : Nib := x.extractLsb' 0 4

/-- `{nib_hi, nib_lo}`, the decoder's reassembly (R41, 42_decoder.md R75 step 5). -/
def joinNibbles (hi lo : Nib) : Byte := hi ++ lo

/-- The codeword byte made of a nibble and a parity triple: `d3 d2 d1 p2 0 d0 p1 p0` (30_encoding.md R38);
in the variant `low7`, `0 d3 d2 d1 p2 d0 p1 p0` (92_eei_decisions.md D10, appendix). -/
def scatter (v : CodecVariant) (n : Nib) (p : Par) : Byte :=
  match v with
  | .literal => word8 (bit n 3) (bit n 2) (bit n 1) (bit p 2) 0#1 (bit n 0) (bit p 1) (bit p 0)
  | .low7 => word8 0#1 (bit n 3) (bit n 2) (bit n 1) (bit p 2) (bit n 0) (bit p 1) (bit p 0)

/-- The data bits of a codeword byte: positions {7,6,5,2} (40_parity_generator.md R52); `low7`: {6,5,4,2} (D10). -/
def gatherData (v : CodecVariant) (b : Byte) : Nib :=
  match v with
  | .literal => word4 (bit b 7) (bit b 6) (bit b 5) (bit b 2)
  | .low7 => word4 (bit b 6) (bit b 5) (bit b 4) (bit b 2)

/-- The parity bits of a codeword byte: positions {4,1,0} (40_parity_generator.md R53); `low7`: {3,1,0} (D10). -/
def gatherParity (v : CodecVariant) (b : Byte) : Par :=
  match v with
  | .literal => word3 (bit b 4) (bit b 1) (bit b 0)
  | .low7 => word3 (bit b 3) (bit b 1) (bit b 0)

/-- `FLIPPOS(s) = s >> 1`, the document's literal (42_decoder.md R73, R77). -/
def flipPos (diff : Par) : Nat := (diff >>> 1).toNat

/-- The flip mask: `1 << FLIPPOS(diff)` (42_decoder.md R73); `low7`: `(1 << diff) >> 1` in 8 bits (D10). -/
def flipMask (v : CodecVariant) (diff : Par) : Byte :=
  match v with
  | .literal => (1#8) <<< flipPos diff
  | .low7 => ((1#8) <<< diff.toNat) >>> 1

end Sys2Proof.Machine
end

