-- ==== Sys2Proof/Machine/Codec.lean ====
section
/-! DEFINITION. The pure functions of the blocks (40_parity_generator.md R50 to R53; 42_decoder.md R71 to R74), in either
codec variant. The operations of exec and the pulls call them. -/

namespace Sys2Proof.Machine

/-- GETPARITY (R50): `p2 = d3^d2^d1`, `p1 = d3^d2^d0`, `p0 = d3^d1^d0`. The same in both variants (D10). -/
def getParity (n : Nib) : Par :=
  word3 (bit n 3 ^^^ bit n 2 ^^^ bit n 1) (bit n 3 ^^^ bit n 2 ^^^ bit n 0) (bit n 3 ^^^ bit n 1 ^^^ bit n 0)

/-- ENCODE (R51). -/
def encodeNib (v : CodecVariant) (n : Nib) : Byte := scatter v n (getParity n)

/-- EXTRACTDATA (R52). -/
def extractData (v : CodecVariant) (b : Byte) : Nib := gatherData v b

/-- EXTRACTPARITY (R53). -/
def extractParity (v : CodecVariant) (b : Byte) : Par := gatherParity v b

/-- The parity recomputed from the received data bits, "expected" (42_decoder.md R71 step 2). -/
def expectedParity (v : CodecVariant) (b : Byte) : Par := getParity (extractData v b)

/-- The syndrome of a received byte (42_decoder.md R72). -/
def syndrome (v : CodecVariant) (b : Byte) : Par := expectedParity v b ^^^ extractParity v b

/-- CORRECT (R73): it takes any operands and recomputes none of them. -/
def correctByte (v : CodecVariant) (b : Byte) (expected got : Par) : Byte := b ^^^ flipMask v (expected ^^^ got)

/-- DECODE1 (R74): steps 1 to 4 for one byte. -/
def decodeByte (v : CodecVariant) (b : Byte) : Nib :=
  extractData v (correctByte v b (expectedParity v b) (extractParity v b))

end Sys2Proof.Machine
end

