-- ==== Sys2Proof/Syntax.lean ====
section
/-! DEFINITION. The operations (00_scope.md R4), one constructor each, with their operands. -/

namespace Sys2Proof

/-- What a source gives once its listed bytes are delivered (20_memory.md R21): the terminal answer T, `End` or `Err`; or,
where N is not finite, no terminal answer ever, but the bytes of an endless stream (log 14). -/
inductive Terminal where
  | endOfStream
  | err
  | never (stream : Nat)
deriving DecidableEq, Repr

/-- A byte source (20_memory.md R21): the bytes it will deliver first, in order, what it gives after them, and the read
position. -/
structure Source where
  bytes : List Byte
  term  : Terminal
  pos   : Nat
deriving DecidableEq, Repr

/-- The ten operations of R4, in the order of spec/opcode_table.json. An operation on an instance names it by the number
the construction returned (the pulls' implicit operand, R61 and R75; log 4). A source is an operand by value: the new
instance owns it exclusively (R60, R70; log 13). -/
inductive Instr where
  /-- GETPARITY(n), R50. -/
  | getParity (n : Nib)
  /-- ENCODE(n), R51. -/
  | encodeNibble (n : Nib)
  /-- EXTRACTDATA(b), R52. -/
  | extractData (b : Byte)
  /-- EXTRACTPARITY(b), R53. -/
  | extractParity (b : Byte)
  /-- ENC.NEW(src), R60. -/
  | encNew (src : Source)
  /-- ENC.NEXT on encoder number k, R61. -/
  | encNext (k : Nat)
  /-- CORRECT(b, expected, got), R73. -/
  | correct (b : Byte) (expected got : Par)
  /-- DECODE1(b), R74. -/
  | decode1 (b : Byte)
  /-- DEC.NEW(src), R70. -/
  | decNew (src : Source)
  /-- DEC.NEXT on decoder number k, R75. -/
  | decNext (k : Nat)
deriving DecidableEq, Repr

end Sys2Proof
end

