-- ==== Sys2Proof/WellFormed.lean ====
section
/-! DEFINITION. Which operations are well formed. The widths of the operands are their types; the one condition left is that
a source is handed over "at position 0, nothing consumed" (R60, R70, 20_memory.md R21). -/

namespace Sys2Proof

/-- The source has delivered nothing yet. -/
def Source.unread (src : Source) : Bool := src.pos == 0

/-- Well-formedness of an operation. -/
def Instr.wf : Instr → Bool
  | .getParity _ => true
  | .encodeNibble _ => true
  | .extractData _ => true
  | .extractParity _ => true
  | .encNew src => src.unread
  | .encNext _ => true
  | .correct _ _ _ => true
  | .decode1 _ => true
  | .decNew src => src.unread
  | .decNext _ => true

end Sys2Proof
end

