-- ==== Sys2Proof/Decode.lean ====
section
/-! DEFINITION. The words by which a queued request names an operation, read and written.
The hardware selects no operation by a bit pattern (30_encoding.md R44): these words are the model's own transport of the
consumer's requests (DESIGN CHOICE, unsafe; log 1). The one row of spec/opcode_table.json with a fixed bit is ENCODE
(`abcp0dqr`, bit 3 = 0), so a byte with bit 3 clear is an ENCODE word; the other nine operations have a first byte with
bit 3 set, then their operands, each in the bit layout of its own row or rule. -/

namespace Sys2Proof

open Sys2Proof.Machine

/-- Why a request names no operation. -/
inductive DecodeError where
  /-- The word ends before its operands do. -/
  | truncated
  /-- The first byte is the word of no operation. -/
  | unknownOperation
  /-- A bit above a nibble or parity operand is set. -/
  | reservedBits
  /-- A byte of a source or of an instance number is no tag. -/
  | badTag
  /-- Bytes are left over after the operation. -/
  | trailingBytes
deriving DecidableEq, Repr

/-- What reading from the front of a list of bytes gives: a value and the bytes not read, or the reason there is none. -/
inductive Parse (α : Type) where
  | ok (x : α) (rest : List Byte)
  | reject (why : DecodeError)
deriving DecidableEq, Repr

/-- Goes on with the rest of the bytes, or keeps the rejection. -/
def Parse.andThen {α β : Type} (p : Parse α) (f : α → List Byte → Parse β) : Parse β :=
  match p with
  | .ok x rest => f x rest
  | .reject why => .reject why

/-- A row of the table of first bytes: the byte belongs to the operation when its bits under `mask` are `value`. -/
structure OpRow where
  mnemonic : String
  mask     : Byte
  value    : Byte
deriving DecidableEq, Repr

def OpRow.matches (r : OpRow) (b : Byte) : Bool := (b &&& r.mask) == r.value

/-- ENCODE: the table's own fixed bit (bit 3 = 0). -/
def rowEncode : OpRow := ⟨"ENCODE", 0x08#8, 0x00#8⟩
def rowGetParity : OpRow := ⟨"GETPARITY", 0xFF#8, 0x08#8⟩
def rowExtractData : OpRow := ⟨"EXTRACTDATA", 0xFF#8, 0x09#8⟩
def rowExtractParity : OpRow := ⟨"EXTRACTPARITY", 0xFF#8, 0x0A#8⟩
def rowEncNew : OpRow := ⟨"ENC.NEW", 0xFF#8, 0x0B#8⟩
def rowEncNext : OpRow := ⟨"ENC.NEXT", 0xFF#8, 0x0C#8⟩
def rowCorrect : OpRow := ⟨"CORRECT", 0xFF#8, 0x0D#8⟩
def rowDecode1 : OpRow := ⟨"DECODE1", 0xFF#8, 0x0E#8⟩
def rowDecNew : OpRow := ⟨"DEC.NEW", 0xFF#8, 0x0F#8⟩
def rowDecNext : OpRow := ⟨"DEC.NEXT", 0xFF#8, 0x18#8⟩

/-- All rows; no two match one byte (`Laws.opRows_disjoint`). -/
def opRows : List OpRow :=
  [rowEncode, rowGetParity, rowExtractData, rowExtractParity, rowEncNew, rowEncNext, rowCorrect, rowDecode1, rowDecNew,
    rowDecNext]

/-- A byte operand. -/
def takeByte : List Byte → Parse Byte
  | [] => .reject .truncated
  | b :: rest => .ok b rest

/-- A nibble operand: a byte `0000abcd` (the row's pattern `abcd`, 30_encoding.md R37). -/
def takeNib : List Byte → Parse Nib
  | [] => .reject .truncated
  | b :: rest => if nibHi b = 0#4 then .ok (nibLo b) rest else .reject .reservedBits

/-- A parity operand: a byte `00000pqr` (30_encoding.md R39). -/
def takePar : List Byte → Parse Par
  | [] => .reject .truncated
  | b :: rest => if b.extractLsb' 3 5 = 0#5 then .ok (b.extractLsb' 0 3) rest else .reject .reservedBits

/-- An instance number k: k bytes 01, then a byte 00 (there may be any number of instances, 60_exceptions.md R97). -/
def takeNumber : List Byte → Parse Nat
  | [] => .reject .truncated
  | t :: rest =>
    if t = 0x00#8 then .ok 0 rest
    else if t = 0x01#8 then (takeNumber rest).andThen fun k rest' => .ok (k + 1) rest'
    else .reject .badTag

/-- A source at its first byte: for each byte v the bytes 01 v, then 00 for End, 02 for Err, or 03 and the number of an
endless stream (20_memory.md R21). -/
def takeSource : List Byte → Parse Source
  | [] => .reject .truncated
  | [t] =>
    if t = 0x00#8 then .ok ⟨[], .endOfStream, 0⟩ []
    else if t = 0x02#8 then .ok ⟨[], .err, 0⟩ []
    else if t = 0x01#8 then .reject .truncated
    else if t = 0x03#8 then .reject .truncated
    else .reject .badTag
  | t :: v :: rest =>
    if t = 0x00#8 then .ok ⟨[], .endOfStream, 0⟩ (v :: rest)
    else if t = 0x02#8 then .ok ⟨[], .err, 0⟩ (v :: rest)
    else if t = 0x01#8 then (takeSource rest).andThen fun src rest' => .ok { src with bytes := v :: src.bytes } rest'
    else if t = 0x03#8 then (takeNumber (v :: rest)).andThen fun k rest' => .ok ⟨[], .never k, 0⟩ rest'
    else .reject .badTag

/-- Reads one operation from the front of a list of bytes. Total: any bytes give an operation or a named rejection.
In an ENCODE word the bits p, q, r are the row's result bits, not its operand, and are not looked at (log 2). -/
def decode : List Byte → Parse Instr
  | [] => .reject .truncated
  | op :: rest =>
    if rowEncode.matches op then .ok (.encodeNibble (gatherData .literal op)) rest
    else if rowGetParity.matches op then (takeNib rest).andThen fun n r => .ok (.getParity n) r
    else if rowExtractData.matches op then (takeByte rest).andThen fun b r => .ok (.extractData b) r
    else if rowExtractParity.matches op then (takeByte rest).andThen fun b r => .ok (.extractParity b) r
    else if rowEncNew.matches op then (takeSource rest).andThen fun src r => .ok (.encNew src) r
    else if rowEncNext.matches op then (takeNumber rest).andThen fun k r => .ok (.encNext k) r
    else if rowCorrect.matches op then
      (takeByte rest).andThen fun b r => (takePar r).andThen fun e r' => (takePar r').andThen fun g r'' =>
        .ok (.correct b e g) r''
    else if rowDecode1.matches op then (takeByte rest).andThen fun b r => .ok (.decode1 b) r
    else if rowDecNew.matches op then (takeSource rest).andThen fun src r => .ok (.decNew src) r
    else if rowDecNext.matches op then (takeNumber rest).andThen fun k r => .ok (.decNext k) r
    else .reject .unknownOperation

/-- Reads a request: one operation and nothing after it. -/
def decodeRequest (word : List Byte) : Parse Instr :=
  (decode word).andThen fun i rest => if rest.isEmpty then .ok i [] else .reject .trailingBytes

/-- The bytes of an instance number. -/
def putNumber (k : Nat) : List Byte := List.replicate k 0x01#8 ++ [0x00#8]

/-- The bytes that end a source. -/
def putTerminal : Terminal → List Byte
  | .endOfStream => [0x00#8]
  | .err => [0x02#8]
  | .never k => 0x03#8 :: putNumber k

/-- The bytes of a source at its first byte (its position is not written: a well-formed operand has position 0). -/
def putSource (src : Source) : List Byte := src.bytes.flatMap (fun v => [0x01#8, v]) ++ putTerminal src.term

/-- The word of an operation. ENCODE's word is the codeword its row shows, `d3 d2 d1 p2 0 d0 p1 p0`. -/
def encode : Instr → List Byte
  | .getParity n => [rowGetParity.value, joinNibbles 0#4 n]
  | .encodeNibble n => [encodeNib .literal n]
  | .extractData b => [rowExtractData.value, b]
  | .extractParity b => [rowExtractParity.value, b]
  | .encNew src => rowEncNew.value :: putSource src
  | .encNext k => rowEncNext.value :: putNumber k
  | .correct b e g => [rowCorrect.value, b, 0#5 ++ e, 0#5 ++ g]
  | .decode1 b => [rowDecode1.value, b]
  | .decNew src => rowDecNew.value :: putSource src
  | .decNext k => rowDecNext.value :: putNumber k

/-- The bytes of a table word: bits 7..0 are the first byte, bits 15..8 the second, and so on. -/
def wordBytes (nbits w : Nat) : List Byte :=
  (List.range ((nbits + 7) / 8)).map fun k => BitVec.ofNat 8 (w >>> (8 * k))

/-- The request a table word stands for: its bytes, with as many zero bytes after them as its operation still needs (three
at most, CORRECT's) and without the zero bytes its operation does not reach; the word's own bytes where they name none. -/
def requestOfWord (nbits w : Nat) : List Byte :=
  let bytes := wordBytes nbits w
  let padded := bytes ++ List.replicate 4 0x00#8
  match decode padded with
  | .ok _ rest => if rest.all (· == 0x00#8) then padded.take (padded.length - rest.length) else bytes
  | .reject _ => bytes

/-- The operation the decoder reads from a table word. -/
def decodeTableWord (nbits w : Nat) : Option Instr :=
  match decodeRequest (requestOfWord nbits w) with
  | .ok i _ => some i
  | .reject _ => none

end Sys2Proof
end

