-- ==== Sys2Proof/Machine/State.lean ====
section
/-! DEFINITION. The state of the machine (10_state.md), the reasons a pull fails and an operation is refused, and reset. -/

namespace Sys2Proof.Machine

/-- The events that fail an instance (60_exceptions.md R85). A pull that meets one RAISES it: it is the pull's result and
the next state of the machine (`Instance.raise`, R86), so `Host.Outcome.fault` is answered by no operation (log 7). -/
inductive Fault where
  /-- `Fatal(SourceReadError)`: raised by ENC.NEXT and DEC.NEXT when a SrcRead() answers Err (R61, R63, R75). Safe: the
  instance takes no further pull. -/
  | sourceReadError
  /-- `Fault(MalformedLength)`: raised by DEC.NEXT when its second read answers End, under ODD_TAIL_POLICY = fault (R76).
  Safe: nothing is yielded for the unpaired byte. -/
  | malformedLength
deriving DecidableEq, Repr

/-- Why an operation has no meaning. -/
inductive Refusal where
  /-- Raised by `exec` for an operation without a meaning; no arm answers it. Safe. -/
  | notModelled (mnemonic : String)
  /-- Raised by ENC.NEXT and DEC.NEXT: a pull of an instance whose `failed` is 1 has no meaning (R86, U5). Safe. -/
  | failedInstance
  /-- Raised by ENC.NEXT and DEC.NEXT: no construction has returned an instance of that number (log 5). Safe. -/
  | noSuchInstance
  /-- Raised by `step`: the request's word names no operation (log 1). Safe. -/
  | badRequest (why : DecodeError)
deriving DecidableEq, Repr

/-- The one result of a pull (00_scope.md R7, 20_memory.md R23). -/
inductive PullResult where
  /-- `Out(v)`. -/
  | out (v : Byte)
  /-- `End`: no failure (60_exceptions.md R87). -/
  | endOfStream
  /-- `Fatal(SourceReadError)` or `Fault(MalformedLength)` (R86). -/
  | raised (why : Fault)
deriving DecidableEq, Repr

/-- What an encoder and a decoder instance have in common: their two streams and the mark. -/
structure Instance where
  /-- The byte source, owned exclusively (20_memory.md R20, R21, R31). -/
  source  : Source
  /-- `failed` (10_state.md R14): set by a raise, never cleared. -/
  failed  : Bool
  /-- The results of the pulls made so far, in pull order (R20, R23; log 17). -/
  results : List PullResult
deriving DecidableEq, Repr

/-- An encoder instance: one register, `enc_buf` (10_state.md R10). -/
structure Encoder extends Instance where
  encBuf : Option Byte
deriving DecidableEq, Repr

/-- A decoder instance: no register of its own (10_state.md R11). -/
structure Decoder extends Instance where
deriving DecidableEq, Repr

/-- What an operation returns to its caller (the Result line of its rule; log 16). -/
inductive Answer where
  | nib (n : Nib)
  | par (p : Par)
  | byte (b : Byte)
  /-- The number of the encoder just constructed. -/
  | encoder (k : Nat)
  /-- The number of the decoder just constructed. -/
  | decoder (k : Nat)
  | pull (r : PullResult)
deriving DecidableEq, Repr

/-- The machine: its instances, numbered in the order of their construction (log 4); the parameters, which no step changes
(log 11); the consumer's pending requests, oldest first (log 3); and what the last operation returned (log 16). -/
structure State where
  cfg      : Config
  encoders : List Encoder
  decoders : List Decoder
  pending  : List (List Byte)
  answer   : Option Answer
deriving DecidableEq, Repr

/-- An instance just constructed around a source: at position 0, nothing consumed, not failed (R60, R70, R100). -/
def Instance.fresh (src : Source) : Instance := { source := { src with pos := 0 }, failed := false, results := [] }

/-- An encoder after ENC.NEW (R60, 10_state.md R17). -/
def Encoder.fresh (src : Source) : Encoder := { toInstance := .fresh src, encBuf := none }

/-- A decoder after DEC.NEW (R70). -/
def Decoder.fresh (src : Source) : Decoder := { toInstance := .fresh src }

/-- The source of the two instances that stand at reset: nothing to deliver, then End (DESIGN CHOICE, unsafe; log 6). -/
def resetSource : Source := { bytes := [], term := .endOfStream, pos := 0 }

/-- The machine right after reset. Reset IS construction (70_reset_and_hazards.md R100), so one encoder and one decoder
stand just constructed (log 6), with the spec's choice of the parameters (00_scope.md R6) and no request made yet. -/
def State.reset : State :=
  { cfg := .normative, encoders := [.fresh resetSource], decoders := [.fresh resetSource], pending := [], answer := none }

end Sys2Proof.Machine
end

