-- ==== Sys2Proof/Machine/Flags.lean ====
section
/-! DEFINITION. The bit-sized pieces of state. The hardware has no condition codes and no flag that an operation computes
(10_state.md R13); what there is, is the valid bit of `enc_buf` (R10) and the mark `failed` (R14). -/

namespace Sys2Proof.Machine

/-- The valid bit of `enc_buf` (R10). -/
def Encoder.bufValid (e : Encoder) : Bool := e.encBuf.isSome

/-- A pull is admitted when `failed` is 0 (60_exceptions.md R86). -/
def Instance.admitted (i : Instance) : Bool := !i.failed

end Sys2Proof.Machine
end

