-- ==== Sys2Proof/Machine/Ops.lean ====
section
/-! DEFINITION. The named operations over the state: reading a source, raising a failure, and the updates of State. -/

namespace Sys2Proof

/-- `s[i]`, the byte a source delivers at a position, and none from N on (20_memory.md R21). A source that gives no
terminal answer has a byte at every position: after its listed bytes a free one (log 14). -/
def Source.byteAt (src : Source) (i : Nat) : Option Byte :=
  match src.bytes[i]? with
  | some v => some v
  | none =>
    match src.term with
    | .endOfStream => none
    | .err => none
    | .never stream => some (Config.endlessByte stream i)

end Sys2Proof

namespace Sys2Proof.Machine

/-- The three answers of SrcRead() (20_memory.md R22). -/
inductive ReadAnswer where
  | byte (v : Byte)
  | endOfStream
  | err
deriving DecidableEq, Repr

/-- SrcRead() (20_memory.md R22): a byte is consumed exactly when one is delivered. -/
def srcRead (src : Source) : ReadAnswer × Source :=
  match src.byteAt src.pos with
  | some v => (.byte v, { src with pos := src.pos + 1 })
  | none => (if src.term = .endOfStream then .endOfStream else .err, src)

/-- SrcRead() on the source of an instance. -/
def Instance.read (i : Instance) : ReadAnswer × Instance :=
  ((srcRead i.source).1, { i with source := (srcRead i.source).2 })

/-- TAKING A FAILURE, the one operation both blocks share (60_exceptions.md R86, R92): the pull's result is the event, the
mark is set, nothing is saved and nothing else changes. There is no return from it (R93). -/
def Instance.raise (why : Fault) (i : Instance) : PullResult × Instance := (.raised why, { i with failed := true })

/-- The pull's result goes to the output sequence (20_memory.md R23). -/
def Instance.record (r : PullResult) (i : Instance) : Instance := { i with results := i.results ++ [r] }

def State.withAnswer (s : State) (a : Answer) : State := { s with answer := some a }

def State.withPending (s : State) (p : List (List Byte)) : State := { s with pending := p }

/-- Construction of an encoder (R60): a new instance after all others. -/
def State.addEncoder (s : State) (e : Encoder) : State := { s with encoders := s.encoders ++ [e] }

/-- Construction of a decoder (R70). -/
def State.addDecoder (s : State) (d : Decoder) : State := { s with decoders := s.decoders ++ [d] }

def State.setEncoder (s : State) (k : Nat) (e : Encoder) : State := { s with encoders := s.encoders.set k e }

def State.setDecoder (s : State) (k : Nat) (d : Decoder) : State := { s with decoders := s.decoders.set k d }

/-- The bytes an instance has yielded: the `v` of its `Out(v)` results in pull order (20_memory.md R23). -/
def outputs (rs : List PullResult) : List Byte :=
  rs.filterMap fun r =>
    match r with
    | .out v => some v
    | .endOfStream => none
    | .raised _ => none

end Sys2Proof.Machine
end

