-- ==== Sys2Proof/Machine/DecoderBlock.lean ====
section
/-! DEFINITION. The operations of the hamming_7_4_decoder block (42_decoder.md). -/

namespace Sys2Proof.Machine

open Host

/-- OddTail() (R76), on the decoder after both reads: the unpaired byte is consumed and yields nothing. -/
def oddTail (p : OddTailPolicy) (i : Instance) : PullResult × Instance :=
  match p with
  | .fault => i.raise .malformedLength
  | .discard => (.endOfStream, i)

/-- The body of DEC.NEXT on an admitted decoder (R75): read, read, decode twice, reassemble. -/
def pullDecoder (cfg : Config) (i : Instance) : PullResult × Instance :=
  match i.read with
  | (.endOfStream, i₁) => (.endOfStream, i₁)
  | (.err, i₁) => i₁.raise .sourceReadError
  | (.byte b0, i₁) =>
    match i₁.read with
    | (.err, i₂) => i₂.raise .sourceReadError
    | (.endOfStream, i₂) => oddTail cfg.oddTail i₂
    | (.byte b1, i₂) => (.out (joinNibbles (decodeByte cfg.variant b0) (decodeByte cfg.variant b1)), i₂)

/-- CORRECT (R73). -/
def execCorrect (b : Byte) (expected got : Par) (s : State) : Outcome State Fault Refusal :=
  .next (s.withAnswer (.byte (correctByte s.cfg.variant b expected got)))

/-- DECODE1 (R74). -/
def execDecode1 (b : Byte) (s : State) : Outcome State Fault Refusal :=
  .next (s.withAnswer (.nib (decodeByte s.cfg.variant b)))

/-- DEC.NEW (R70): no SrcRead() is made and nothing about the source is checked. -/
def execDecNew (src : Source) (s : State) : Outcome State Fault Refusal :=
  .next ((s.addDecoder (.fresh src)).withAnswer (.decoder s.decoders.length))

/-- DEC.NEXT (R75): admission (60_exceptions.md R86), then the pull. -/
def execDecNext (k : Nat) (s : State) : Outcome State Fault Refusal :=
  match s.decoders[k]? with
  | none => .refused .noSuchInstance
  | some d =>
    if d.admitted then
      let p := pullDecoder s.cfg d.toInstance
      .next ((s.setDecoder k { toInstance := p.2.record p.1 }).withAnswer (.pull p.1))
    else .refused .failedInstance

end Sys2Proof.Machine
end

