-- ==== Sys2Proof/Machine/EncoderBlock.lean ====
section
/-! DEFINITION. The operations of the hamming_7_4_encoder block (41_encoder.md): construction and the pull. -/

namespace Sys2Proof.Machine

open Host

/-- The body of ENC.NEXT on an admitted encoder (R61): its result and the encoder after it. A pull with the buffer full
makes no read (92_eei_decisions.md D18; log 18). -/
def pullEncoder (v : CodecVariant) (e : Encoder) : PullResult × Encoder :=
  match e.encBuf with
  | some c => (.out c, { e with encBuf := none })
  | none =>
    match e.toInstance.read with
    | (.byte x, i) => (.out (encodeNib v (nibHi x)), { toInstance := i, encBuf := some (encodeNib v (nibLo x)) })
    | (.endOfStream, i) => (.endOfStream, { e with toInstance := i })
    | (.err, i) => ((i.raise .sourceReadError).1, { e with toInstance := (i.raise .sourceReadError).2 })

/-- ENC.NEW (R60): no SrcRead() is made. -/
def execEncNew (src : Source) (s : State) : Outcome State Fault Refusal :=
  .next ((s.addEncoder (.fresh src)).withAnswer (.encoder s.encoders.length))

/-- ENC.NEXT (R61): admission (60_exceptions.md R86), then the pull. -/
def execEncNext (k : Nat) (s : State) : Outcome State Fault Refusal :=
  match s.encoders[k]? with
  | none => .refused .noSuchInstance
  | some e =>
    if e.admitted then
      let p := pullEncoder s.cfg.variant e
      .next ((s.setEncoder k { p.2 with toInstance := p.2.toInstance.record p.1 }).withAnswer (.pull p.1))
    else .refused .failedInstance

end Sys2Proof.Machine
end

