-- ==== Sys2Proof/Machine/ParityGenerator.lean ====
section
/-! DEFINITION. The operations of the parity_generator block (40_parity_generator.md): pure, total, they return a value to
the caller and touch no instance (R55). -/

namespace Sys2Proof.Machine

open Host

/-- GETPARITY (R50). -/
def execGetParity (n : Nib) (s : State) : Outcome State Fault Refusal := .next (s.withAnswer (.par (getParity n)))

/-- ENCODE (R51). -/
def execEncodeNibble (n : Nib) (s : State) : Outcome State Fault Refusal :=
  .next (s.withAnswer (.byte (encodeNib s.cfg.variant n)))

/-- EXTRACTDATA (R52). -/
def execExtractData (b : Byte) (s : State) : Outcome State Fault Refusal :=
  .next (s.withAnswer (.nib (extractData s.cfg.variant b)))

/-- EXTRACTPARITY (R53). -/
def execExtractParity (b : Byte) (s : State) : Outcome State Fault Refusal :=
  .next (s.withAnswer (.par (extractParity s.cfg.variant b)))

end Sys2Proof.Machine
end

