-- ==== Sys2Proof/Machine/Dispatch.lean ====
section
/-! DEFINITION. One arm per operation, in the order of spec/opcode_table.json. -/

namespace Sys2Proof.Machine

def exec (i : Instr) (s : State) : Host.Outcome State Fault Refusal :=
  match i with
  | .getParity n => Sys2Proof.Machine.execGetParity n s
  | .encodeNibble n => Sys2Proof.Machine.execEncodeNibble n s
  | .extractData b => Sys2Proof.Machine.execExtractData b s
  | .extractParity b => Sys2Proof.Machine.execExtractParity b s
  | .encNew src => Sys2Proof.Machine.execEncNew src s
  | .encNext k => Sys2Proof.Machine.execEncNext k s
  | .correct b expected got => Sys2Proof.Machine.execCorrect b expected got s
  | .decode1 b => Sys2Proof.Machine.execDecode1 b s
  | .decNew src => Sys2Proof.Machine.execDecNew src s
  | .decNext k => Sys2Proof.Machine.execDecNext k s

end Sys2Proof.Machine
end

