-- ==== Sys2Proof/Machine/Step.lean ====
section
/-! DEFINITION. One step of the machine: the consumer's oldest request is taken from the queue and carried out. -/

namespace Sys2Proof.Machine

/-- An instance acts only when pulled (60_exceptions.md R90) and keeps its state otherwise (R96): with no request pending
the step changes nothing. A request that names no operation is refused (log 1). -/
def step (s : State) : Host.Outcome State Fault Refusal :=
  match s.pending with
  | [] => .next s
  | word :: later =>
    match decodeRequest word with
    | .ok i _ => exec i (s.withPending later)
    | .reject why => .refused (.badRequest why)

/-- The state with a table word as the consumer's next request (log 3). -/
def State.withFetchWord (s : State) (nbits w : Nat) : State := s.withPending (requestOfWord nbits w :: s.pending)

end Sys2Proof.Machine
end

