-- ==== Sys2Proof/Safety.lean ====
section
/-! DEFINITION. What counts as a safe state and a safe run, in the terms the statements use: the whole-stream functions of
the spec, the invariant of the instances, and runs of operations. -/

namespace Sys2Proof

/-- The source gives a terminal answer after its listed bytes, so that its N is finite (20_memory.md R21). -/
def Source.ends (src : Source) : Bool :=
  match src.term with
  | .endOfStream => true
  | .err => true
  | .never _ => false

/-- The bytes a source has delivered so far, `s[0]` to `s[pos - 1]` (20_memory.md R21, R22). -/
def Source.delivered (src : Source) : List Byte := (List.range src.pos).filterMap src.byteAt

end Sys2Proof

namespace Sys2Proof.Machine

open Host

/-- The two codewords of one source byte, upper nibble's first (41_encoder.md R62). -/
def encodedPair (v : CodecVariant) (x : Byte) : List Byte := [encodeNib v (nibHi x), encodeNib v (nibLo x)]

/-- `encode(seq)` (30_encoding.md R46, 41_encoder.md R65). -/
def encodedStream (v : CodecVariant) (xs : List Byte) : List Byte := xs.flatMap (encodedPair v)

/-- The bytes decoded from the pairs of a stream, paired by position; a last byte without a partner yields nothing
(20_memory.md R25, 42_decoder.md R76, R82). -/
def decodedStream (v : CodecVariant) : List Byte → List Byte
  | b0 :: b1 :: rest => joinNibbles (decodeByte v b0) (decodeByte v b1) :: decodedStream v rest
  | [_] => []
  | [] => []

/-- How far a run has come (70_reset_and_hazards.md R105). `unfinished` covers both "abandoned" and "still going": the state
cannot tell a consumer that stopped from one that has not pulled yet. -/
inductive RunStatus where
  | complete
  | failed
  | unfinished
deriving DecidableEq, Repr

/-- The run of an instance, from the results of its pulls (R105). -/
def Instance.runStatus (i : Instance) : RunStatus :=
  if i.failed then .failed else if .endOfStream ∈ i.results then .complete else .unfinished

/-- What holds of the streams and the mark of every instance of either kind: the read position lies in the source (R21);
the mark is set exactly when a pull has raised (R14, R86); a failed or a complete run has reached the end of its source, a
failed one no End before it (R85, R87, R34). -/
structure Instance.Sound (i : Instance) : Prop where
  pos_le : i.source.ends = true → i.source.pos ≤ i.source.bytes.length
  failed_iff : i.failed = true ↔ ∃ why, .raised why ∈ i.results
  failed_at_end : i.failed = true → i.source.ends = true ∧ i.source.pos = i.source.bytes.length
  ended_at_end : .endOfStream ∈ i.results →
    i.source.pos = i.source.bytes.length ∧ i.source.term = .endOfStream ∧ i.failed = false

/-- An encoder is sound: what it has yielded, with the buffered codeword after it, is the encoding of exactly the bytes it
has read (R10, R28, R65); a failed or complete run has nothing buffered (R64, R86); it raises only SourceReadError, and only
for a source that ends in Err (R61). -/
structure Encoder.Sound (v : CodecVariant) (e : Encoder) : Prop extends e.toInstance.Sound where
  yielded : outputs e.results ++ e.encBuf.toList = encodedStream v e.source.delivered
  failed_empty : e.failed = true → e.encBuf = none ∧ e.source.term = .err
  ended_empty : .endOfStream ∈ e.results → e.encBuf = none
  no_malformed : .raised .malformedLength ∉ e.results

/-- A decoder is sound: what it has yielded is the decoding of the pairs it has read (R28, R82), and it stands inside a pair
only at the end of its source (R25, R75). -/
structure Decoder.Sound (v : CodecVariant) (d : Decoder) : Prop extends d.toInstance.Sound where
  yielded : outputs d.results = decodedStream v d.source.delivered
  paired : d.source.pos % 2 = 1 → d.source.ends = true ∧ d.source.pos = d.source.bytes.length

/-- Every instance is sound. -/
structure State.Inv (s : State) : Prop where
  encoders : ∀ e ∈ s.encoders, e.Sound s.cfg.variant
  decoders : ∀ d ∈ s.decoders, d.Sound s.cfg.variant

/-- No instance of the machine has failed (the premise of a successful run, 60_exceptions.md R86). -/
def State.NoneFailed (s : State) : Prop := (∀ e ∈ s.encoders, e.failed = false) ∧ ∀ d ∈ s.decoders, d.failed = false

/-- The operations that are pure functions (R4): they touch no instance and no stream. -/
def pureOperation : Instr → Bool
  | .getParity _ => true
  | .encodeNibble _ => true
  | .extractData _ => true
  | .extractParity _ => true
  | .encNew _ => false
  | .encNext _ => false
  | .correct _ _ _ => true
  | .decode1 _ => true
  | .decNew _ => false
  | .decNext _ => false

/-- Operations carried out one after another, stopping at the first that does not answer a next state. -/
def runInstrs : List Instr → State → Outcome State Fault Refusal
  | [], s => .next s
  | i :: is, s =>
    match exec i s with
    | .next t => runInstrs is t
    | .fault f => .fault f
    | .refused r => .refused r

/-- n steps of the machine, stopping at the first that does not answer a next state (the host's own run). -/
def runSteps (n : Nat) (s : State) : Outcome State Fault Refusal := Host.Core.run Sys2Proof.core n s

/-- Encoder number k with other streams, mark and buffer contents, and everything else as in s. -/
def State.afterEncPull (s : State) (k : Nat) (e : Encoder) (r : PullResult) : State :=
  { s with encoders := s.encoders.set k { e with results := e.results ++ [r] }, answer := some (.pull r) }

/-- Decoder number k with other streams and mark, and everything else as in s. -/
def State.afterDecPull (s : State) (k : Nat) (d : Decoder) (r : PullResult) : State :=
  { s with decoders := s.decoders.set k { d with results := d.results ++ [r] }, answer := some (.pull r) }

end Sys2Proof.Machine
end

