-- ==== Sys2Proof/Certificates/Slice0/Obligations.lean ====
section
/-! DEFINITION. The statements for the provers. A statement about the normative codec has `s.cfg.variant = .literal` as its
premise (00_scope.md R6: the parameter's value in the spec); a statement without it holds of both variants, and what it says
of the variant low7 rests on a hypothesis of the spec (92_eei_decisions.md D10, appendix; log 10), on none of its rules. -/

open Sys2Proof Sys2Proof.Machine

/-- R50: GETPARITY(n) answers the triple {p2, p1, p0} of the three parity equations and changes nothing else. -/
def Obligations.GetParityAnswersTheThreeEquations : Prop :=
  ∀ (n : Nib) (s : State),
    exec (.getParity n) s = .next { s with answer := some (.par (getParity n)) } ∧
    (getParity n).getLsbD 2 = (n.getLsbD 3 ^^ n.getLsbD 2 ^^ n.getLsbD 1) ∧
    (getParity n).getLsbD 1 = (n.getLsbD 3 ^^ n.getLsbD 2 ^^ n.getLsbD 0) ∧
    (getParity n).getLsbD 0 = (n.getLsbD 3 ^^ n.getLsbD 1 ^^ n.getLsbD 0)

/-- R51: ENCODE(n) answers d3 d2 d1 p2 0 d0 p1 p0, p being GETPARITY(n), and changes nothing else. -/
def Obligations.EncodeAnswersTheCodeword : Prop :=
  ∀ (n : Nib) (s : State), s.cfg.variant = .literal →
    ∃ c : Byte, exec (.encodeNibble n) s = .next { s with answer := some (.byte c) } ∧
      c.getLsbD 7 = n.getLsbD 3 ∧ c.getLsbD 6 = n.getLsbD 2 ∧ c.getLsbD 5 = n.getLsbD 1 ∧
      c.getLsbD 4 = (getParity n).getLsbD 2 ∧ c.getLsbD 3 = false ∧ c.getLsbD 2 = n.getLsbD 0 ∧
      c.getLsbD 1 = (getParity n).getLsbD 1 ∧ c.getLsbD 0 = (getParity n).getLsbD 0

/-- R52: EXTRACTDATA(b) answers {b[7], b[6], b[5], b[2]}, whatever b is, and changes nothing else. -/
def Obligations.ExtractDataGathersTheDataBits : Prop :=
  ∀ (b : Byte) (s : State), s.cfg.variant = .literal →
    ∃ n : Nib, exec (.extractData b) s = .next { s with answer := some (.nib n) } ∧
      n.getLsbD 3 = b.getLsbD 7 ∧ n.getLsbD 2 = b.getLsbD 6 ∧ n.getLsbD 1 = b.getLsbD 5 ∧ n.getLsbD 0 = b.getLsbD 2

/-- R53: EXTRACTPARITY(b) answers {b[4], b[1], b[0]}, whatever b is, and changes nothing else. -/
def Obligations.ExtractParityGathersTheParityBits : Prop :=
  ∀ (b : Byte) (s : State), s.cfg.variant = .literal →
    ∃ p : Par, exec (.extractParity b) s = .next { s with answer := some (.par p) } ∧
      p.getLsbD 2 = b.getLsbD 4 ∧ p.getLsbD 1 = b.getLsbD 1 ∧ p.getLsbD 0 = b.getLsbD 0

/-- 92_eei_decisions.md D10, appendix: ENCODE, EXTRACTDATA, EXTRACTPARITY, CORRECT and DECODE1 in the variant low7 (a
hypothesis of the spec, not one of its rules; log 10). -/
def Obligations.LowSevenVariantOfTheCodec : Prop :=
  ∀ s : State, s.cfg.variant = .low7 →
    (∀ n : Nib, ∃ c : Byte, exec (.encodeNibble n) s = .next { s with answer := some (.byte c) } ∧
      c.getLsbD 7 = false ∧ c.getLsbD 6 = n.getLsbD 3 ∧ c.getLsbD 5 = n.getLsbD 2 ∧ c.getLsbD 4 = n.getLsbD 1 ∧
      c.getLsbD 3 = (getParity n).getLsbD 2 ∧ c.getLsbD 2 = n.getLsbD 0 ∧ c.getLsbD 1 = (getParity n).getLsbD 1 ∧
      c.getLsbD 0 = (getParity n).getLsbD 0) ∧
    (∀ b : Byte, ∃ n : Nib, exec (.extractData b) s = .next { s with answer := some (.nib n) } ∧
      n.getLsbD 3 = b.getLsbD 6 ∧ n.getLsbD 2 = b.getLsbD 5 ∧ n.getLsbD 1 = b.getLsbD 4 ∧ n.getLsbD 0 = b.getLsbD 2) ∧
    (∀ b : Byte, ∃ p : Par, exec (.extractParity b) s = .next { s with answer := some (.par p) } ∧
      p.getLsbD 2 = b.getLsbD 3 ∧ p.getLsbD 1 = b.getLsbD 1 ∧ p.getLsbD 0 = b.getLsbD 0) ∧
    (∀ (b : Byte) (e g : Par), ∃ r : Byte, exec (.correct b e g) s = .next { s with answer := some (.byte r) } ∧
      ∀ i < 8, r.getLsbD i = (b.getLsbD i ^^ decide (i + 1 = (e ^^^ g).toNat))) ∧
    (∀ b : Byte, ∃ (got expected : Par) (d n : Nib) (b' : Byte),
      exec (.extractParity b) s = .next { s with answer := some (.par got) } ∧
      exec (.extractData b) s = .next { s with answer := some (.nib d) } ∧
      exec (.getParity d) s = .next { s with answer := some (.par expected) } ∧
      exec (.correct b expected got) s = .next { s with answer := some (.byte b') } ∧
      exec (.extractData b') s = .next { s with answer := some (.nib n) } ∧
      exec (.decode1 b) s = .next { s with answer := some (.nib n) })

/-- R54: EXTRACTPARITY(ENCODE(n)) = GETPARITY(n) and EXTRACTDATA(ENCODE(n)) = n, for all n. -/
def Obligations.ExtractingFromACodewordGivesBack : Prop :=
  ∀ (n : Nib) (s : State), s.cfg.variant = .literal → ∃ (c : Byte) (p : Par),
    exec (.encodeNibble n) s = .next { s with answer := some (.byte c) } ∧
    exec (.getParity n) s = .next { s with answer := some (.par p) } ∧
    exec (.extractParity c) s = .next { s with answer := some (.par p) } ∧
    exec (.extractData c) s = .next { s with answer := some (.nib n) }

/-- R55: the four operations of parity_generator (and CORRECT and DECODE1, which R73 and R74 call pure) always complete,
their answer depends on their operands alone, and they change nothing but what the caller gets. -/
def Obligations.PureOperationsDependOnTheirOperandsAlone : Prop :=
  ∀ (i : Instr) (s s' : State), pureOperation i = true → s.cfg.variant = .literal → s'.cfg.variant = .literal →
    ∃ a : Answer, exec i s = .next { s with answer := some a } ∧ exec i s' = .next { s' with answer := some a }

/-- R56 (a), (b): the four functions are linear over exclusive-or, in both variants. -/
def Obligations.CodecFunctionsAreLinear : Prop :=
  ∀ v : CodecVariant,
    (∀ a b : Nib, getParity (a ^^^ b) = getParity a ^^^ getParity b ∧
      encodeNib v (a ^^^ b) = encodeNib v a ^^^ encodeNib v b) ∧
    (∀ x y : Byte, extractData v (x ^^^ y) = extractData v x ^^^ extractData v y ∧
      extractParity v (x ^^^ y) = extractParity v x ^^^ extractParity v y)

/-- R40: exactly 16 byte values are codewords, the listed ones in the order of their nibbles, and the codewords of two
distinct nibbles differ in at least three bit positions. -/
def Obligations.SixteenConformingCodewords : Prop :=
  ∀ s : State, s.cfg.variant = .literal →
    (∀ n : Nib, ∃ c : Byte, exec (.encodeNibble n) s = .next { s with answer := some (.byte c) } ∧
      ([0x00, 0x07, 0x31, 0x36, 0x52, 0x55, 0x63, 0x64, 0x93, 0x94, 0xA2, 0xA5, 0xC1, 0xC6, 0xF0, 0xF7] : List Byte)[n.toNat]?
        = some c) ∧
    (∀ (n m : Nib) (c d : Byte), n ≠ m → exec (.encodeNibble n) s = .next { s with answer := some (.byte c) } →
      exec (.encodeNibble m) s = .next { s with answer := some (.byte d) } →
      3 ≤ ((List.range 8).filter fun i => c.getLsbD i != d.getLsbD i).length)

/-- R72: bit by bit, the syndrome expected ^ got of a received byte; it is zero exactly for the codewords and the codewords
with bit 3 set. The triples are those that the operations answer (R71). -/
def Obligations.SyndromeOfAReceivedByte : Prop :=
  ∀ (b : Byte) (s : State), s.cfg.variant = .literal →
    ∃ (d : Nib) (expected got : Par),
      exec (.extractParity b) s = .next { s with answer := some (.par got) } ∧
      exec (.extractData b) s = .next { s with answer := some (.nib d) } ∧
      exec (.getParity d) s = .next { s with answer := some (.par expected) } ∧
      (expected ^^^ got).getLsbD 2 = (b.getLsbD 7 ^^ b.getLsbD 6 ^^ b.getLsbD 5 ^^ b.getLsbD 4) ∧
      (expected ^^^ got).getLsbD 1 = (b.getLsbD 7 ^^ b.getLsbD 6 ^^ b.getLsbD 2 ^^ b.getLsbD 1) ∧
      (expected ^^^ got).getLsbD 0 = (b.getLsbD 7 ^^ b.getLsbD 5 ^^ b.getLsbD 2 ^^ b.getLsbD 0) ∧
      (expected ^^^ got = 0 ↔ ∃ n : Nib, b = encodeNib .literal n ∨ b = encodeNib .literal n ^^^ 0x08#8)

/-- R73: CORRECT(b, expected, got) answers b with exactly bit (expected ^ got) >> 1 inverted, whatever the syndrome, and
changes nothing else. -/
def Obligations.CorrectFlipsTheBitOfTheFormula : Prop :=
  ∀ (b : Byte) (expected got : Par) (s : State), s.cfg.variant = .literal →
    ∃ r : Byte, exec (.correct b expected got) s = .next { s with answer := some (.byte r) } ∧
      ∀ i < 8, r.getLsbD i = (b.getLsbD i ^^ decide (i = (expected ^^^ got).toNat / 2))

/-- R74: DECODE1(b) answers what EXTRACTPARITY, EXTRACTDATA with GETPARITY, CORRECT and EXTRACTDATA answer one after
another, and changes nothing else. -/
def Obligations.DecodeOneIsTheFourSteps : Prop :=
  ∀ (b : Byte) (s : State), s.cfg.variant = .literal → ∃ (got expected : Par) (d n : Nib) (b' : Byte),
    exec (.extractParity b) s = .next { s with answer := some (.par got) } ∧
    exec (.extractData b) s = .next { s with answer := some (.nib d) } ∧
    exec (.getParity d) s = .next { s with answer := some (.par expected) } ∧
    exec (.correct b expected got) s = .next { s with answer := some (.byte b') } ∧
    exec (.extractData b') s = .next { s with answer := some (.nib n) } ∧
    exec (.decode1 b) s = .next { s with answer := some (.nib n) }

/-- R81: the closed form of DECODE1 on every byte value, and that bits 3 and 0 of the byte do not matter. -/
def Obligations.DecodeOneClosedForm : Prop :=
  ∀ (b : Byte) (s : State), s.cfg.variant = .literal →
    (∃ n : Nib, exec (.decode1 b) s = .next { s with answer := some (.nib n) } ∧
      n.getLsbD 3 = b.getLsbD 7 ∧ n.getLsbD 2 = b.getLsbD 6 ∧ n.getLsbD 1 = b.getLsbD 5 ∧
      n.getLsbD 0 = (b.getLsbD 2 ^^ ((b.getLsbD 7 ^^ b.getLsbD 6 ^^ b.getLsbD 5 ^^ b.getLsbD 4) &&
        !(b.getLsbD 7 ^^ b.getLsbD 6 ^^ b.getLsbD 2 ^^ b.getLsbD 1)))) ∧
    exec (.decode1 (b ^^^ 0x08#8)) s = exec (.decode1 b) s ∧
    exec (.decode1 (b ^^^ 0x01#8)) s = exec (.decode1 b) s ∧
    exec (.decode1 (b ^^^ 0x09#8)) s = exec (.decode1 b) s

/-- R78: a codeword without an error: CORRECT inverts its bit 0, which gives no codeword, and DECODE1 answers its nibble;
so the round trip of every byte gives it back. -/
def Obligations.UncorruptedCodewordIsDecoded : Prop :=
  ∀ (n : Nib) (s : State), s.cfg.variant = .literal →
    (∃ (c : Byte) (p : Par),
      exec (.encodeNibble n) s = .next { s with answer := some (.byte c) } ∧
      exec (.getParity n) s = .next { s with answer := some (.par p) } ∧
      exec (.extractParity c) s = .next { s with answer := some (.par p) } ∧
      exec (.correct c p p) s = .next { s with answer := some (.byte (c ^^^ 0x01#8)) } ∧
      (∀ m : Nib, exec (.encodeNibble m) s ≠ .next { s with answer := some (.byte (c ^^^ 0x01#8)) }) ∧
      exec (.decode1 c) s = .next { s with answer := some (.nib n) }) ∧
    ∀ x : Byte, decodedStream s.cfg.variant (encodedStream s.cfg.variant [x]) = [x]

/-- R79, R80: a codeword with bit i inverted has the syndrome of R79's table, and DECODE1 answers the nibble of R80's table:
the nibble is recovered for i = 0, 1, 3 and for no other i. -/
def Obligations.OneFlippedBitIsDecodedAsTabled : Prop :=
  ∀ (n : Nib) (s : State), s.cfg.variant = .literal →
    ∃ c : Byte, exec (.encodeNibble n) s = .next { s with answer := some (.byte c) } ∧
      ∀ i < 8, ∃ (diff : Par) (err m : Nib),
        ([1, 2, 3, 0, 4, 5, 6, 7] : List Par)[i]? = some diff ∧
        ([0, 0, 1, 0, 1, 3, 4, 8] : List Nib)[i]? = some err ∧ m = n ^^^ err ∧
        syndrome .literal (c ^^^ (1#8 <<< i)) = diff ∧
        exec (.decode1 (c ^^^ (1#8 <<< i))) s = .next { s with answer := some (.nib m) } ∧
        (m = n ↔ i = 0 ∨ i = 1 ∨ i = 3)

/-- 92_eei_decisions.md D10, appendix: in the variant low7 DECODE1 recovers the nibble of a codeword with any one bit
inverted (a hypothesis of the spec, not one of its rules; log 10). -/
def Obligations.LowSevenRecoversEverySingleBitError : Prop :=
  ∀ (n : Nib) (s : State), s.cfg.variant = .low7 →
    ∃ c : Byte, exec (.encodeNibble n) s = .next { s with answer := some (.byte c) } ∧
      exec (.decode1 c) s = .next { s with answer := some (.nib n) } ∧
      ∀ i < 8, exec (.decode1 (c ^^^ (1#8 <<< i))) s = .next { s with answer := some (.nib n) }

/-- R60: ENC.NEW(src) adds an encoder with an empty buffer, not failed, at position 0 of src, reads nothing, and touches no
other instance. The number it answers is the model's handle (log 4). -/
def Obligations.EncNewConstructsAnEncoder : Prop :=
  ∀ (src : Source) (s : State), ∃ e : Encoder,
    exec (.encNew src) s =
      .next { s with encoders := s.encoders ++ [e], answer := some (.encoder s.encoders.length) } ∧
    e.encBuf = none ∧ e.failed = false ∧ e.results = [] ∧
    e.source.bytes = src.bytes ∧ e.source.term = src.term ∧ e.source.pos = 0

/-- R70: DEC.NEW(src) adds a decoder, not failed, at position 0 of src, reads nothing, and touches no other instance. The
number it answers is the model's handle (log 4). -/
def Obligations.DecNewConstructsADecoder : Prop :=
  ∀ (src : Source) (s : State), ∃ d : Decoder,
    exec (.decNew src) s =
      .next { s with decoders := s.decoders ++ [d], answer := some (.decoder s.decoders.length) } ∧
    d.failed = false ∧ d.results = [] ∧
    d.source.bytes = src.bytes ∧ d.source.term = src.term ∧ d.source.pos = 0

/-- R61: ENC.NEXT, all four ways: the buffered codeword without a read; the upper nibble's codeword of the byte read, with
the lower nibble's buffered; End; the fatal signal. `afterEncPull` says that nothing but encoder k changes (R67). The
codewords are those ENCODE answers. That a full buffer makes no read is the spec's decision D18 (log 18), that the signal is
a result which sets the mark D8 (log 7). -/
def Obligations.EncNextPullsAnEncoder : Prop :=
  ∀ (s : State) (k : Nat) (e : Encoder), s.encoders[k]? = some e → e.failed = false →
    (∀ c, e.encBuf = some c →
      exec (.encNext k) s = .next (s.afterEncPull k { e with encBuf := none } (.out c))) ∧
    (∀ x, e.encBuf = none → e.source.byteAt e.source.pos = some x →
      ∃ hi lo : Byte,
        exec (.encodeNibble (x.extractLsb' 4 4)) s = .next { s with answer := some (.byte hi) } ∧
        exec (.encodeNibble (x.extractLsb' 0 4)) s = .next { s with answer := some (.byte lo) } ∧
        exec (.encNext k) s = .next (s.afterEncPull k
          { e with source := { e.source with pos := e.source.pos + 1 }, encBuf := some lo } (.out hi))) ∧
    (e.encBuf = none → e.source.bytes.length ≤ e.source.pos → e.source.term = .endOfStream →
      exec (.encNext k) s = .next (s.afterEncPull k e .endOfStream)) ∧
    (e.encBuf = none → e.source.bytes.length ≤ e.source.pos → e.source.term = .err →
      exec (.encNext k) s = .next (s.afterEncPull k { e with failed := true } (.raised .sourceReadError)))

/-- R75, R76: DEC.NEXT, all six ways: a pair decoded and reassembled, upper nibble first; End at once; a failing first or
second read; the odd tail under either policy. `afterDecPull` says that nothing but decoder k changes. The nibbles are those
DECODE1 answers. The odd tail's outcomes are the spec's decision D7 (log 9), that an End at once makes no second read D19
(log 19), the form of a failure D8 (log 7). -/
def Obligations.DecNextPullsADecoder : Prop :=
  ∀ (s : State) (k : Nat) (d : Decoder), s.decoders[k]? = some d → d.failed = false →
    (∀ b0 b1, d.source.byteAt d.source.pos = some b0 → d.source.byteAt (d.source.pos + 1) = some b1 →
      ∃ hi lo : Nib,
        exec (.decode1 b0) s = .next { s with answer := some (.nib hi) } ∧
        exec (.decode1 b1) s = .next { s with answer := some (.nib lo) } ∧
        exec (.decNext k) s = .next (s.afterDecPull k
          { d with source := { d.source with pos := d.source.pos + 2 } } (.out (hi ++ lo)))) ∧
    (d.source.bytes.length ≤ d.source.pos → d.source.term = .endOfStream →
      exec (.decNext k) s = .next (s.afterDecPull k d .endOfStream)) ∧
    (d.source.bytes.length ≤ d.source.pos → d.source.term = .err →
      exec (.decNext k) s = .next (s.afterDecPull k { d with failed := true } (.raised .sourceReadError))) ∧
    (d.source.pos + 1 = d.source.bytes.length → d.source.term = .err →
      exec (.decNext k) s = .next (s.afterDecPull k
        { d with source := { d.source with pos := d.source.pos + 1 }, failed := true } (.raised .sourceReadError))) ∧
    (d.source.pos + 1 = d.source.bytes.length → d.source.term = .endOfStream → s.cfg.oddTail = .fault →
      exec (.decNext k) s = .next (s.afterDecPull k
        { d with source := { d.source with pos := d.source.pos + 1 }, failed := true } (.raised .malformedLength))) ∧
    (d.source.pos + 1 = d.source.bytes.length → d.source.term = .endOfStream → s.cfg.oddTail = .discard →
      exec (.decNext k) s = .next (s.afterDecPull k
        { d with source := { d.source with pos := d.source.pos + 1 } } .endOfStream))

/-- R86: a pull that raises yields no byte and sets the mark, its encoder's buffer is empty before and after, no operation
ever changes the failed instance again, and a further pull of it is refused. -/
def Obligations.RaisingAPullFailsTheInstanceForGood : Prop :=
  (∀ (s t : State) (k : Nat) (why : Fault), exec (.encNext k) s = .next t → t.answer = some (.pull (.raised why)) →
    ∃ e e' : Encoder, s.encoders[k]? = some e ∧ t.encoders[k]? = some e' ∧ outputs e'.results = outputs e.results ∧
      e'.failed = true ∧ e.encBuf = none ∧ e'.encBuf = none ∧ exec (.encNext k) t = .refused .failedInstance) ∧
  (∀ (s t : State) (k : Nat) (why : Fault), exec (.decNext k) s = .next t → t.answer = some (.pull (.raised why)) →
    ∃ d d' : Decoder, s.decoders[k]? = some d ∧ t.decoders[k]? = some d' ∧ outputs d'.results = outputs d.results ∧
      d'.failed = true ∧ exec (.decNext k) t = .refused .failedInstance) ∧
  (∀ (s t : State) (i : Instr), exec i s = .next t →
    (∀ (k : Nat) (e : Encoder), s.encoders[k]? = some e → e.failed = true → t.encoders[k]? = some e) ∧
    (∀ (k : Nat) (d : Decoder), s.decoders[k]? = some d → d.failed = true → t.decoders[k]? = some d))

/-- R86, U5: a pull of a failed instance is refused, whatever else holds. -/
def Obligations.PullOfAFailedInstanceIsRefused : Prop :=
  ∀ (s : State) (k : Nat),
    (∀ e, s.encoders[k]? = some e → e.failed = true → exec (.encNext k) s = .refused .failedInstance) ∧
    (∀ d, s.decoders[k]? = some d → d.failed = true → exec (.decNext k) s = .refused .failedInstance)

/-- R67, R83, R23: the frame of a pull. Nothing changes but its own instance and what its caller gets; that instance keeps
its source's content, reads at most one byte (encoder) or two (decoder), and its output sequence grows by exactly the result
the pull answers. -/
def Obligations.APullChangesOnlyItsOwnInstance : Prop :=
  (∀ (s t : State) (k : Nat), exec (.encNext k) s = .next t →
    t.cfg = s.cfg ∧ t.pending = s.pending ∧ t.decoders = s.decoders ∧ t.encoders.length = s.encoders.length ∧
    (∀ j, j ≠ k → t.encoders[j]? = s.encoders[j]?) ∧
    ∃ e e' r, s.encoders[k]? = some e ∧ t.encoders[k]? = some e' ∧ t.answer = some (.pull r) ∧
      e'.results = e.results ++ [r] ∧ e'.source.bytes = e.source.bytes ∧ e'.source.term = e.source.term ∧
      (e'.source.pos = e.source.pos ∨ e'.source.pos = e.source.pos + 1 ∧ e.encBuf = none)) ∧
  (∀ (s t : State) (k : Nat), exec (.decNext k) s = .next t →
    t.cfg = s.cfg ∧ t.pending = s.pending ∧ t.encoders = s.encoders ∧ t.decoders.length = s.decoders.length ∧
    (∀ j, j ≠ k → t.decoders[j]? = s.decoders[j]?) ∧
    ∃ d d' r, s.decoders[k]? = some d ∧ t.decoders[k]? = some d' ∧ t.answer = some (.pull r) ∧
      d'.results = d.results ++ [r] ∧ d'.source.bytes = d.source.bytes ∧ d'.source.term = d.source.term ∧
      d.source.pos ≤ d'.source.pos ∧ d'.source.pos ≤ d.source.pos + 2)

/-- R19: the result of a pull, and what it makes of its instance, depend on that instance (and the parameters) alone; and no
other operation changes the instance. -/
def Obligations.InstancesAreIndependent : Prop :=
  (∀ (s s' : State) (k k' : Nat) (e : Encoder), s.cfg = s'.cfg → s.encoders[k]? = some e → s'.encoders[k']? = some e →
    e.failed = false →
    ∃ t t', exec (.encNext k) s = .next t ∧ exec (.encNext k') s' = .next t' ∧ t.answer = t'.answer ∧
      t.encoders[k]? = t'.encoders[k']?) ∧
  (∀ (s s' : State) (k k' : Nat) (d : Decoder), s.cfg = s'.cfg → s.decoders[k]? = some d → s'.decoders[k']? = some d →
    d.failed = false →
    ∃ t t', exec (.decNext k) s = .next t ∧ exec (.decNext k') s' = .next t' ∧ t.answer = t'.answer ∧
      t.decoders[k]? = t'.decoders[k']?) ∧
  (∀ (s t : State) (i : Instr) (k : Nat), exec i s = .next t →
    (i ≠ .encNext k → k < s.encoders.length → t.encoders[k]? = s.encoders[k]?) ∧
    (i ≠ .decNext k → k < s.decoders.length → t.decoders[k]? = s.decoders[k]?))

/-- R14, R21, R23, R101: whatever a step does, the parameters stay, every instance stays, keeps its source's content and its
results so far, never goes back in its source, and never loses its mark. -/
def Obligations.StepsOnlyMoveInstancesForward : Prop :=
  ∀ s t : State, step s = .next t →
    t.cfg = s.cfg ∧
    (∀ (k : Nat) (e : Encoder), s.encoders[k]? = some e →
      ∃ e' : Encoder, t.encoders[k]? = some e' ∧ e'.source.bytes = e.source.bytes ∧ e'.source.term = e.source.term ∧
        e.source.pos ≤ e'.source.pos ∧ e.results <+: e'.results ∧ (e.failed = true → e' = e)) ∧
    (∀ (k : Nat) (d : Decoder), s.decoders[k]? = some d →
      ∃ d' : Decoder, t.decoders[k]? = some d' ∧ d'.source.bytes = d.source.bytes ∧ d'.source.term = d.source.term ∧
        d.source.pos ≤ d'.source.pos ∧ d.results <+: d'.results ∧ (d.failed = true → d' = d))

/-- The invariant of the instances (R10, R14, R21, R25, R28, R65, R82, R85 to R87) is kept by every step, from every state
that has it. -/
def Obligations.StepKeepsTheInstancesSound : Prop :=
  ∀ s t : State, s.Inv → step s = .next t → t.Inv

/-- The invariant holds at reset (whatever the model chose there, log 6) and of a machine with any instances just
constructed around any sources (R17, R100). -/
def Obligations.FreshInstancesAreSound : Prop :=
  State.reset.Inv ∧
  ∀ (s : State) (src : Source), s.Inv →
    (∃ t, exec (.encNew src) s = .next t ∧ t.Inv) ∧ (∃ t, exec (.decNew src) s = .next t ∧ t.Inv)

/-- R17: after construction, at reset or by ENC.NEW and DEC.NEW, the buffer is empty, the mark is 0 and the source is at its
first byte. That one encoder and one decoder stand at reset is the model's choice (log 6). -/
def Obligations.ResetIsConstruction : Prop :=
  (∀ e ∈ State.reset.encoders, e.encBuf = none ∧ e.failed = false ∧ e.source.pos = 0) ∧
  (∀ d ∈ State.reset.decoders, d.failed = false ∧ d.source.pos = 0) ∧
  (∀ (s t : State) (src : Source), exec (.encNew src) s = .next t →
    ∃ e, t.encoders.getLast? = some e ∧ e.encBuf = none ∧ e.failed = false ∧ e.source = { src with pos := 0 }) ∧
  (∀ (s t : State) (src : Source), exec (.decNew src) s = .next t →
    ∃ d, t.decoders.getLast? = some d ∧ d.failed = false ∧ d.source = { src with pos := 0 })

/-- R10: in a sound machine a full buffer holds the codeword of the lower nibble of the byte the encoder read last. -/
def Obligations.BufferHoldsTheLowerNibblesCodeword : Prop :=
  ∀ (s : State) (e : Encoder) (c : Byte), s.Inv → e ∈ s.encoders → e.encBuf = some c →
    ∃ x, 0 < e.source.pos ∧ e.source.byteAt (e.source.pos - 1) = some x ∧ c = encodeNib s.cfg.variant (nibLo x)

/-- R66: an encoder pull accepts every source byte, and every byte it yields in a sound machine is a codeword, with bit 3
clear. -/
def Obligations.EncoderYieldsOnlyCodewords : Prop :=
  ∀ s : State, s.Inv → s.cfg.variant = .literal →
    (∀ (t : State) (k : Nat) (v : Byte), exec (.encNext k) s = .next t → t.answer = some (.pull (.out v)) →
      v.getLsbD 3 = false ∧ ∃ n : Nib, exec (.encodeNibble n) s = .next { s with answer := some (.byte v) }) ∧
    (∀ (k : Nat) (e : Encoder) (x : Byte), s.encoders[k]? = some e → e.failed = false → e.encBuf = none →
      e.source.byteAt e.source.pos = some x →
      ∃ (t : State) (v : Byte), exec (.encNext k) s = .next t ∧ t.answer = some (.pull (.out v)))

/-- R87, R34: a pull that answers End sets no mark, and a further pull of the same instance answers End again and leaves the
instance's source, mark and buffer as they are (the spec's decision D9, log 12). -/
def Obligations.EndIsAnsweredAgain : Prop :=
  (∀ (s t : State) (k : Nat), exec (.encNext k) s = .next t → t.answer = some (.pull .endOfStream) →
    ∃ e u e', t.encoders[k]? = some e ∧ e.failed = false ∧ e.encBuf = none ∧ exec (.encNext k) t = .next u ∧
      u.answer = some (.pull .endOfStream) ∧ u.encoders[k]? = some e' ∧
      e' = { e with results := e.results ++ [.endOfStream] }) ∧
  (∀ (s t : State) (k : Nat), exec (.decNext k) s = .next t → t.answer = some (.pull .endOfStream) →
    ∃ d u d', t.decoders[k]? = some d ∧ d.failed = false ∧ exec (.decNext k) t = .next u ∧
      u.answer = some (.pull .endOfStream) ∧ u.decoders[k]? = some d' ∧
      d' = { d with results := d.results ++ [.endOfStream] })

/-- No step ends in a fault outcome: a failure is a pull's result and a next state (log 7). -/
def Obligations.NoStepEndsInAFault : Prop :=
  ∀ (s : State) (f : Fault), step s ≠ .fault f

/-- A step is refused in exactly these cases: the request names no operation (log 1), or it pulls an instance that does not
exist (log 5) or has failed (R86). -/
def Obligations.StepIsRefusedExactlyWhen : Prop :=
  ∀ (s : State) (r : Refusal), step s = .refused r ↔
    ∃ word later, s.pending = word :: later ∧
      ((∃ why, decodeRequest word = .reject why ∧ r = .badRequest why) ∨
       (∃ k rest, decodeRequest word = .ok (.encNext k) rest ∧
          ((s.encoders[k]? = none ∧ r = .noSuchInstance) ∨
           ∃ e, s.encoders[k]? = some e ∧ e.failed = true ∧ r = .failedInstance)) ∨
       (∃ k rest, decodeRequest word = .ok (.decNext k) rest ∧
          ((s.decoders[k]? = none ∧ r = .noSuchInstance) ∨
           ∃ d, s.decoders[k]? = some d ∧ d.failed = true ∧ r = .failedInstance)))

/-- A step carries out the operation that the consumer's oldest request names, with the later requests kept; with no request
it changes nothing (R90, R96); and a table word made the next request is what the next step carries out (log 3). -/
def Obligations.StepRunsTheRequestedOperation : Prop :=
  (∀ (s : State) (i : Instr) (word rest : List Byte) (later : List (List Byte)), s.pending = word :: later →
    decodeRequest word = .ok i rest → i.wf = true → step s = exec i { s with pending := later }) ∧
  (∀ s : State, s.pending = [] → step s = .next s) ∧
  (∀ (s : State) (nbits w : Nat) (i : Instr), decodeTableWord nbits w = some i →
    step (s.withFetchWord nbits w) = exec i s)

/-- Words written out by hand: ENCODE(1010) as its codeword 10100010 (R51), the others in the model's form (log 1). -/
def Obligations.WordsWrittenOutAreDecoded : Prop :=
  decodeRequest [0b10100010#8] = .ok (.encodeNibble 0b1010#4) [] ∧
  decodeRequest [0b00001000#8, 0b00001011#8] = .ok (.getParity 0b1011#4) [] ∧
  decodeRequest [0b00001101#8, 0b10110010#8, 0b00000010#8, 0b00000110#8] =
    .ok (.correct 0b10110010#8 0b010#3 0b110#3) [] ∧
  decodeRequest [0b00001011#8, 0x01#8, 0xAB#8, 0x00#8] = .ok (.encNew ⟨[0xAB#8], .endOfStream, 0⟩) [] ∧
  decodeRequest [0b00011000#8, 0x01#8, 0x00#8] = .ok (.decNext 1) [] ∧
  decodeTableWord 8 0b11110111 = some (.encodeNibble 0b1111#4)

/-- Decoding the word of a well-formed operation gives the operation back, whatever follows the word (log 1). -/
def Obligations.DecodingAnEncodedOperationGivesItBack : Prop :=
  ∀ (i : Instr) (rest : List Byte), i.wf = true → decode (encode i ++ rest) = .ok i rest

/-- What the decoder accepts is well formed, and its word is the encoder's but for the result bits of an ENCODE word, which
names the operation by its fixed bit and its four data bits (log 1, log 2). -/
def Obligations.DecodedWordsAreTheEncodersWords : Prop :=
  ∀ (w rest : List Byte) (i : Instr), decode w = .ok i rest →
    i.wf = true ∧
    ((∀ n, i ≠ .encodeNibble n) → w = encode i ++ rest) ∧
    (∀ n, i = .encodeNibble n →
      ∃ b : Byte, w = b :: rest ∧ b.getLsbD 3 = false ∧ n.getLsbD 3 = b.getLsbD 7 ∧ n.getLsbD 2 = b.getLsbD 6 ∧
        n.getLsbD 1 = b.getLsbD 5 ∧ n.getLsbD 0 = b.getLsbD 2)

/-- R65: the successive pulls of an encoder around s[0..N-1] answer the 2N codewords of its bytes in order, then End or the
fatal signal; nothing else changes. Where the source gives no terminal answer (R21, log 14), the bytes listed first are
encoded in the same way and the next pull yields the codeword of the byte after them. -/
def Obligations.EncoderRunYieldsTheWholeStream : Prop :=
  ∀ (s : State) (k : Nat) (src : Source), s.encoders[k]? = some (.fresh src) →
    ∃ (e : Encoder) (last : PullResult),
      runInstrs (List.replicate (2 * src.bytes.length + 1) (.encNext k)) s =
        .next { s with encoders := s.encoders.set k e, answer := some (.pull last) } ∧
      e.results = (encodedStream s.cfg.variant src.bytes).map .out ++ [last] ∧
      (encodedStream s.cfg.variant src.bytes).length = 2 * src.bytes.length ∧
      (src.term = .endOfStream → last = .endOfStream ∧ e.runStatus = .complete) ∧
      (src.term = .err → last = .raised .sourceReadError ∧ e.runStatus = .failed) ∧
      (∀ n, src.term = .never n →
        last = .out (encodeNib s.cfg.variant (nibHi (Config.endlessByte n src.bytes.length))) ∧ e.runStatus = .unfinished)

/-- R82: the successive pulls of a decoder around s[0..N-1] answer the floor(N/2) decoded pairs in order, then End, the fatal
signal, or the odd tail's outcome (R76; the spec's decision D7, log 9); nothing else changes. Where the source gives no
terminal answer (R21, log 14), the next pull yields a byte. -/
def Obligations.DecoderRunYieldsTheWholeStream : Prop :=
  ∀ (s : State) (k : Nat) (src : Source), s.decoders[k]? = some (.fresh src) →
    ∃ (d : Decoder) (last : PullResult),
      runInstrs (List.replicate (src.bytes.length / 2 + 1) (.decNext k)) s =
        .next { s with decoders := s.decoders.set k d, answer := some (.pull last) } ∧
      d.results = (decodedStream s.cfg.variant src.bytes).map .out ++ [last] ∧
      (decodedStream s.cfg.variant src.bytes).length = src.bytes.length / 2 ∧
      (src.term = .err → last = .raised .sourceReadError ∧ d.runStatus = .failed) ∧
      (src.term = .endOfStream → src.bytes.length % 2 = 0 → last = .endOfStream ∧ d.runStatus = .complete) ∧
      (src.term = .endOfStream → src.bytes.length % 2 = 1 → s.cfg.oddTail = .fault →
        last = .raised .malformedLength ∧ d.runStatus = .failed) ∧
      (src.term = .endOfStream → src.bytes.length % 2 = 1 → s.cfg.oddTail = .discard →
        last = .endOfStream ∧ d.runStatus = .complete) ∧
      (∀ n, src.term = .never n → ∃ b0 b1,
        src.byteAt (src.bytes.length / 2 * 2) = some b0 ∧ src.byteAt (src.bytes.length / 2 * 2 + 1) = some b1 ∧
        last = .out (joinNibbles (decodeByte s.cfg.variant b0) (decodeByte s.cfg.variant b1)) ∧ d.runStatus = .unfinished)

/-- R33, R78 (the round-trip property): an encoder run to its end yields 2N bytes, and a decoder constructed around them and
run to its end yields the N bytes the encoder was given. It says so of both variants: of the literal one by these rules, of
low7 by a hypothesis of the spec (92_eei_decisions.md D10, appendix; log 10). -/
def Obligations.DecodingTheEncodedStreamGivesItBack : Prop :=
  ∀ (s : State) (xs : List Byte), ∃ (t u : State) (e : Encoder) (d : Decoder),
    runInstrs (.encNew ⟨xs, .endOfStream, 0⟩ :: List.replicate (2 * xs.length + 1) (.encNext s.encoders.length)) s = .next t ∧
    t.encoders[s.encoders.length]? = some e ∧ e.runStatus = .complete ∧ (outputs e.results).length = 2 * xs.length ∧
    runInstrs (.decNew ⟨outputs e.results, .endOfStream, 0⟩ ::
      List.replicate (xs.length + 1) (.decNext t.decoders.length)) t = .next u ∧
    u.decoders[t.decoders.length]? = some d ∧ d.runStatus = .complete ∧ outputs d.results = xs

/-- R28 items 3 and 4: output element 2i (2i+1) of the encoder is the codeword of the upper (lower) nibble of source byte i,
and output element k of the decoder is made of source bytes 2k and 2k+1 and nothing else. -/
def Obligations.StreamElementsByPosition : Prop :=
  ∀ (v : CodecVariant) (xs : List Byte) (k : Nat),
    (∀ x, xs[k]? = some x →
      (encodedStream v xs)[2 * k]? = some (encodeNib v (x.extractLsb' 4 4)) ∧
      (encodedStream v xs)[2 * k + 1]? = some (encodeNib v (x.extractLsb' 0 4))) ∧
    (∀ b0 b1, xs[2 * k]? = some b0 → xs[2 * k + 1]? = some b1 →
      (decodedStream v xs)[k]? = some (decodeByte v b0 ++ decodeByte v b1))

/-- R110: from every state, pulling an instance that has not failed, and whose source is finite (it gives a terminal
answer), reaches a result that is no byte within the number of pulls that its unread bytes (and its buffer) allow. -/
def Obligations.EveryRunEndsInTime : Prop :=
  (∀ (s : State) (k : Nat) (e : Encoder), s.encoders[k]? = some e → e.failed = false → e.source.ends = true →
    ∃ m t, m ≤ 2 * (e.source.bytes.length - e.source.pos) + e.bufValid.toNat + 1 ∧
      runInstrs (List.replicate m (.encNext k)) s = .next t ∧
      (t.answer = some (.pull .endOfStream) ∨ t.answer = some (.pull (.raised .sourceReadError))) ∧ 0 < m) ∧
  (∀ (s : State) (k : Nat) (d : Decoder), s.decoders[k]? = some d → d.failed = false → d.source.ends = true →
    ∃ m t, m ≤ (d.source.bytes.length - d.source.pos) / 2 + 1 ∧
      runInstrs (List.replicate m (.decNext k)) s = .next t ∧
      (t.answer = some (.pull .endOfStream) ∨ ∃ why, t.answer = some (.pull (.raised why))) ∧ 0 < m)

/-- R8, R28: the machine, run for as many steps as it has requests, carries out the operations they name one after another
and in that order. The queue (log 3) and the words of the requests (log 1) are the model's. -/
def Obligations.QueuedRequestsRunInOrder : Prop :=
  ∀ (is : List Instr) (s : State), (∀ i ∈ is, i.wf = true) →
    runSteps is.length (s.withPending (is.map encode)) = runInstrs is (s.withPending [])

/-- R21: a source that never gives a terminal answer makes every pull yield a byte. Whatever the state, any number of pulls
of an instance around one that has not failed completes, each with a byte as its result, the instance has not failed after
them, and nothing else changes. The source's bytes after its listed ones are free values (log 14). -/
def Obligations.EndlessSourceMakesEveryPullYieldAByte : Prop :=
  (∀ (s : State) (k n m : Nat) (e : Encoder), s.encoders[k]? = some e → e.failed = false → e.source.term = .never n →
    0 < m → ∃ (e' : Encoder) (vs : List Byte) (v : Byte),
      runInstrs (List.replicate m (.encNext k)) s =
        .next { s with encoders := s.encoders.set k e', answer := some (.pull (.out v)) } ∧
      vs.length = m ∧ vs.getLast? = some v ∧ e'.results = e.results ++ vs.map .out ∧ e'.failed = false ∧
      2 * e'.source.pos + e.bufValid.toNat = 2 * e.source.pos + m + e'.bufValid.toNat) ∧
  (∀ (s : State) (k n m : Nat) (d : Decoder), s.decoders[k]? = some d → d.failed = false → d.source.term = .never n →
    0 < m → ∃ (d' : Decoder) (vs : List Byte) (v : Byte),
      runInstrs (List.replicate m (.decNext k)) s =
        .next { s with decoders := s.decoders.set k d', answer := some (.pull (.out v)) } ∧
      vs.length = m ∧ vs.getLast? = some v ∧ d'.results = d.results ++ vs.map .out ∧ d'.failed = false ∧
      d'.source.pos = d.source.pos + 2 * m)

/-- R21, R22: which bytes a source holds: its listed ones at their positions; from there on none where it gives a terminal
answer, and one at every position where it gives none; and a source delivers them in order, from wherever it stands. -/
def Obligations.SourceDeliversItsBytesInOrder : Prop :=
  ∀ (src : Source) (i : Nat),
    (∀ x, src.bytes[i]? = some x → src.byteAt i = some x) ∧
    (src.bytes.length ≤ i → (src.byteAt i = none ↔ src.ends = true)) ∧
    (∀ x, src.byteAt src.pos = some x → srcRead src = (.byte x, { src with pos := src.pos + 1 })) ∧
    (src.byteAt src.pos = none → src.term = .endOfStream → srcRead src = (.endOfStream, src)) ∧
    (src.byteAt src.pos = none → src.term = .err → srcRead src = (.err, src)) ∧
    ((src.ends = true → src.pos ≤ src.bytes.length) →
      src.delivered.length = src.pos ∧ ∀ j < src.pos, src.delivered[j]? = src.byteAt j)
end

