-- ==== Sys2Proof/Laws/Codec.lean ====
section
/-! SUPPORT. Bit lemmas of the operand assembly and the laws of the pure functions that the other proofs cite. -/

namespace Sys2Proof.Machine

@[simp] theorem bit_zero {w : Nat} (v : BitVec w) (i : Nat) : (bit v i)[0] = v.getLsbD i := by simp [bit]

theorem bit_xor {w : Nat} (x y : BitVec w) (i : Nat) : bit (x ^^^ y) i = bit x i ^^^ bit y i := by
  simp [bit, BitVec.extractLsb'_xor]

section Words

variable (a₀ b₀ c₀ d₀ e₀ f₀ g₀ h₀ : Bit)

@[simp] theorem word3_two : (word3 a₀ b₀ c₀)[2] = a₀[0] := by revert a₀ b₀ c₀; decide
@[simp] theorem word3_one : (word3 a₀ b₀ c₀)[1] = b₀[0] := by revert a₀ b₀ c₀; decide
@[simp] theorem word3_zero : (word3 a₀ b₀ c₀)[0] = c₀[0] := by revert a₀ b₀ c₀; decide

@[simp] theorem word4_three : (word4 a₀ b₀ c₀ d₀)[3] = a₀[0] := by revert a₀ b₀ c₀ d₀; decide
@[simp] theorem word4_two : (word4 a₀ b₀ c₀ d₀)[2] = b₀[0] := by revert a₀ b₀ c₀ d₀; decide
@[simp] theorem word4_one : (word4 a₀ b₀ c₀ d₀)[1] = c₀[0] := by revert a₀ b₀ c₀ d₀; decide
@[simp] theorem word4_zero : (word4 a₀ b₀ c₀ d₀)[0] = d₀[0] := by revert a₀ b₀ c₀ d₀; decide

@[simp] theorem word8_seven : (word8 a₀ b₀ c₀ d₀ e₀ f₀ g₀ h₀)[7] = a₀[0] := by revert a₀ b₀ c₀ d₀ e₀ f₀ g₀ h₀; decide
@[simp] theorem word8_six : (word8 a₀ b₀ c₀ d₀ e₀ f₀ g₀ h₀)[6] = b₀[0] := by revert a₀ b₀ c₀ d₀ e₀ f₀ g₀ h₀; decide
@[simp] theorem word8_five : (word8 a₀ b₀ c₀ d₀ e₀ f₀ g₀ h₀)[5] = c₀[0] := by revert a₀ b₀ c₀ d₀ e₀ f₀ g₀ h₀; decide
@[simp] theorem word8_four : (word8 a₀ b₀ c₀ d₀ e₀ f₀ g₀ h₀)[4] = d₀[0] := by revert a₀ b₀ c₀ d₀ e₀ f₀ g₀ h₀; decide
@[simp] theorem word8_three : (word8 a₀ b₀ c₀ d₀ e₀ f₀ g₀ h₀)[3] = e₀[0] := by revert a₀ b₀ c₀ d₀ e₀ f₀ g₀ h₀; decide
@[simp] theorem word8_two : (word8 a₀ b₀ c₀ d₀ e₀ f₀ g₀ h₀)[2] = f₀[0] := by revert a₀ b₀ c₀ d₀ e₀ f₀ g₀ h₀; decide
@[simp] theorem word8_one : (word8 a₀ b₀ c₀ d₀ e₀ f₀ g₀ h₀)[1] = g₀[0] := by revert a₀ b₀ c₀ d₀ e₀ f₀ g₀ h₀; decide
@[simp] theorem word8_zero : (word8 a₀ b₀ c₀ d₀ e₀ f₀ g₀ h₀)[0] = h₀[0] := by revert a₀ b₀ c₀ d₀ e₀ f₀ g₀ h₀; decide

end Words

theorem word3_xor (a b c a' b' c' : Bit) : word3 (a ^^^ a') (b ^^^ b') (c ^^^ c') = word3 a b c ^^^ word3 a' b' c' := by
  revert a b c a' b' c'; decide

theorem word4_xor (a b c d a' b' c' d' : Bit) :
    word4 (a ^^^ a') (b ^^^ b') (c ^^^ c') (d ^^^ d') = word4 a b c d ^^^ word4 a' b' c' d' := by
  revert a b c d a' b' c' d'; decide

/-- The two halves of a byte joined again (30_encoding.md R36). -/
theorem joinNibbles_split (x : Byte) : joinNibbles (nibHi x) (nibLo x) = x := by revert x; decide

/-- The data invariant (40_parity_generator.md R54). -/
theorem extractData_encodeNib (v : CodecVariant) (n : Nib) : extractData v (encodeNib v n) = n := by
  cases v <;> revert n <;> decide

/-- The parity invariant (40_parity_generator.md R54). -/
theorem extractParity_encodeNib (v : CodecVariant) (n : Nib) : extractParity v (encodeNib v n) = getParity n := by
  cases v <;> revert n <;> decide

/-- A codeword without an error decodes to its nibble (42_decoder.md R78). -/
theorem decodeByte_encodeNib (v : CodecVariant) (n : Nib) : decodeByte v (encodeNib v n) = n := by
  cases v <;> revert n <;> decide

end Sys2Proof.Machine
end

