-- ==== Sys2Proof/Laws/Decode.lean ====
section
/-! SUPPORT. The table of first bytes and the operand readers against the operand writers. -/

namespace Sys2Proof

open Sys2Proof.Machine

/-- No byte matches two rows. -/
theorem Laws.opRows_disjoint : opRows.Pairwise fun r r' => r.value &&& r.mask &&& r'.mask ≠ r'.value &&& r.mask &&& r'.mask := by
  decide

@[simp] theorem Parse.andThen_ok {α β : Type} (x : α) (rest : List Byte) (f : α → List Byte → Parse β) :
    (Parse.ok x rest).andThen f = f x rest := rfl

@[simp] theorem Parse.andThen_reject {α β : Type} (why : DecodeError) (f : α → List Byte → Parse β) :
    (Parse.reject why).andThen f = .reject why := rfl

theorem Parse.andThen_eq_ok {α β : Type} {p : Parse α} {f : α → List Byte → Parse β} {y : β} {r : List Byte}
    (h : p.andThen f = .ok y r) : ∃ x rest, p = .ok x rest ∧ f x rest = .ok y r := by
  cases p with
  | ok x rest => exact ⟨x, rest, rfl, h⟩
  | reject why => simp [Parse.andThen] at h

theorem takeNib_put (n : Nib) (rest : List Byte) : takeNib (joinNibbles 0#4 n :: rest) = .ok n rest := by
  have h : ∀ n : Nib, nibHi (joinNibbles 0#4 n) = 0#4 ∧ nibLo (joinNibbles 0#4 n) = n := by decide
  simp [takeNib, h n]

theorem takePar_put (p : Par) (rest : List Byte) : takePar ((0#5 ++ p : Byte) :: rest) = .ok p rest := by
  have h : ∀ p : Par, (0#5 ++ p : Byte).extractLsb' 3 5 = 0#5 ∧ (0#5 ++ p : Byte).extractLsb' 0 3 = p := by decide
  simp [takePar, h p]

theorem takeNumber_put (k : Nat) (rest : List Byte) : takeNumber (putNumber k ++ rest) = .ok k rest := by
  induction k with
  | zero => rfl
  | succ k ih =>
    have h : putNumber (k + 1) ++ rest = 0x01#8 :: (putNumber k ++ rest) := rfl
    rw [h, takeNumber, if_neg (by decide), if_pos rfl, ih, Parse.andThen_ok]

theorem takeSource_put (bytes : List Byte) (term : Terminal) (p : Nat) (rest : List Byte) :
    takeSource (putSource ⟨bytes, term, p⟩ ++ rest) = .ok ⟨bytes, term, 0⟩ rest := by
  induction bytes with
  | nil =>
    cases term with
    | endOfStream => cases rest <;> simp [putSource, putTerminal, takeSource]
    | err => cases rest <;> simp [putSource, putTerminal, takeSource]
    | never k =>
      obtain ⟨v, r, h⟩ : ∃ v r, putNumber k ++ rest = v :: r := by cases k <;> exact ⟨_, _, rfl⟩
      have e : putSource ⟨[], .never k, p⟩ ++ rest = 0x03#8 :: v :: r := by rw [← h]; rfl
      rw [e, takeSource, if_neg (by decide), if_neg (by decide), if_neg (by decide), if_pos rfl, ← h, takeNumber_put,
        Parse.andThen_ok]
  | cons b bs ih =>
    have h : putSource ⟨b :: bs, term, p⟩ ++ rest = 0x01#8 :: b :: (putSource ⟨bs, term, p⟩ ++ rest) := rfl
    rw [h, takeSource, if_neg (by decide), if_neg (by decide), if_pos rfl, ih, Parse.andThen_ok]

end Sys2Proof
end

