-- ==== Sys2Proof/Laws/State.lean ====
section
/-! SUPPORT. One lemma per field per update of State, and per field of the updates of an instance. -/

namespace Sys2Proof.Machine

variable (s : State)

@[simp] theorem State.withAnswer_cfg (a : Answer) : (s.withAnswer a).cfg = s.cfg := rfl
@[simp] theorem State.withAnswer_encoders (a : Answer) : (s.withAnswer a).encoders = s.encoders := rfl
@[simp] theorem State.withAnswer_decoders (a : Answer) : (s.withAnswer a).decoders = s.decoders := rfl
@[simp] theorem State.withAnswer_pending (a : Answer) : (s.withAnswer a).pending = s.pending := rfl
@[simp] theorem State.withAnswer_answer (a : Answer) : (s.withAnswer a).answer = some a := rfl

@[simp] theorem State.withPending_cfg (p : List (List Byte)) : (s.withPending p).cfg = s.cfg := rfl
@[simp] theorem State.withPending_encoders (p : List (List Byte)) : (s.withPending p).encoders = s.encoders := rfl
@[simp] theorem State.withPending_decoders (p : List (List Byte)) : (s.withPending p).decoders = s.decoders := rfl
@[simp] theorem State.withPending_pending (p : List (List Byte)) : (s.withPending p).pending = p := rfl
@[simp] theorem State.withPending_answer (p : List (List Byte)) : (s.withPending p).answer = s.answer := rfl

@[simp] theorem State.addEncoder_cfg (e : Encoder) : (s.addEncoder e).cfg = s.cfg := rfl
@[simp] theorem State.addEncoder_encoders (e : Encoder) : (s.addEncoder e).encoders = s.encoders ++ [e] := rfl
@[simp] theorem State.addEncoder_decoders (e : Encoder) : (s.addEncoder e).decoders = s.decoders := rfl
@[simp] theorem State.addEncoder_pending (e : Encoder) : (s.addEncoder e).pending = s.pending := rfl
@[simp] theorem State.addEncoder_answer (e : Encoder) : (s.addEncoder e).answer = s.answer := rfl

@[simp] theorem State.addDecoder_cfg (d : Decoder) : (s.addDecoder d).cfg = s.cfg := rfl
@[simp] theorem State.addDecoder_encoders (d : Decoder) : (s.addDecoder d).encoders = s.encoders := rfl
@[simp] theorem State.addDecoder_decoders (d : Decoder) : (s.addDecoder d).decoders = s.decoders ++ [d] := rfl
@[simp] theorem State.addDecoder_pending (d : Decoder) : (s.addDecoder d).pending = s.pending := rfl
@[simp] theorem State.addDecoder_answer (d : Decoder) : (s.addDecoder d).answer = s.answer := rfl

@[simp] theorem State.setEncoder_cfg (k : Nat) (e : Encoder) : (s.setEncoder k e).cfg = s.cfg := rfl
@[simp] theorem State.setEncoder_encoders (k : Nat) (e : Encoder) : (s.setEncoder k e).encoders = s.encoders.set k e := rfl
@[simp] theorem State.setEncoder_decoders (k : Nat) (e : Encoder) : (s.setEncoder k e).decoders = s.decoders := rfl
@[simp] theorem State.setEncoder_pending (k : Nat) (e : Encoder) : (s.setEncoder k e).pending = s.pending := rfl
@[simp] theorem State.setEncoder_answer (k : Nat) (e : Encoder) : (s.setEncoder k e).answer = s.answer := rfl

@[simp] theorem State.setDecoder_cfg (k : Nat) (d : Decoder) : (s.setDecoder k d).cfg = s.cfg := rfl
@[simp] theorem State.setDecoder_encoders (k : Nat) (d : Decoder) : (s.setDecoder k d).encoders = s.encoders := rfl
@[simp] theorem State.setDecoder_decoders (k : Nat) (d : Decoder) : (s.setDecoder k d).decoders = s.decoders.set k d := rfl
@[simp] theorem State.setDecoder_pending (k : Nat) (d : Decoder) : (s.setDecoder k d).pending = s.pending := rfl
@[simp] theorem State.setDecoder_answer (k : Nat) (d : Decoder) : (s.setDecoder k d).answer = s.answer := rfl

variable (i : Instance) (r : PullResult) (why : Fault)

@[simp] theorem Instance.record_source : (i.record r).source = i.source := rfl
@[simp] theorem Instance.record_failed : (i.record r).failed = i.failed := rfl
@[simp] theorem Instance.record_results : (i.record r).results = i.results ++ [r] := rfl

@[simp] theorem Instance.raise_result : (i.raise why).1 = .raised why := rfl
@[simp] theorem Instance.raise_source : (i.raise why).2.source = i.source := rfl
@[simp] theorem Instance.raise_failed : (i.raise why).2.failed = true := rfl
@[simp] theorem Instance.raise_results : (i.raise why).2.results = i.results := rfl

@[simp] theorem Instance.fresh_source (src : Source) : (Instance.fresh src).source = { src with pos := 0 } := rfl
@[simp] theorem Instance.fresh_failed (src : Source) : (Instance.fresh src).failed = false := rfl
@[simp] theorem Instance.fresh_results (src : Source) : (Instance.fresh src).results = [] := rfl
@[simp] theorem Encoder.fresh_toInstance (src : Source) : (Encoder.fresh src).toInstance = .fresh src := rfl
@[simp] theorem Encoder.fresh_encBuf (src : Source) : (Encoder.fresh src).encBuf = none := rfl
@[simp] theorem Decoder.fresh_toInstance (src : Source) : (Decoder.fresh src).toInstance = .fresh src := rfl

end Sys2Proof.Machine
end

