-- ==== Sys2Proof/Laws/Ops.lean ====
section
/-! SUPPORT. What the shared operations can do: one lemma for each answer of SrcRead(), and the output sequence. -/

namespace Sys2Proof

theorem Source.byteAt_listed {src : Source} {i : Nat} (h : i < src.bytes.length) : src.byteAt i = some src.bytes[i] := by
  simp [Source.byteAt, h]

theorem Source.byteAt_never {src : Source} {i n : Nat} (h : src.bytes.length ≤ i) (ht : src.term = .never n) :
    src.byteAt i = some (Config.endlessByte n i) := by simp [Source.byteAt, h, ht]

/-- A source that gives no terminal answer has a byte at every position (20_memory.md R21). -/
theorem Source.byteAt_of_never {src : Source} {n : Nat} (ht : src.term = .never n) (i : Nat) :
    ∃ x, src.byteAt i = some x := by
  by_cases h : i < src.bytes.length
  · exact ⟨_, byteAt_listed h⟩
  · exact ⟨_, byteAt_never (by omega) ht⟩

/-- Which positions have no byte: those from N on, of a source with a terminal answer. -/
theorem Source.byteAt_eq_none {src : Source} {i : Nat} :
    src.byteAt i = none ↔ src.bytes.length ≤ i ∧ (src.term = .endOfStream ∨ src.term = .err) := by
  by_cases h : i < src.bytes.length
  · simp [byteAt_listed h, h]
  · have hl : src.bytes.length ≤ i := by omega
    cases ht : src.term <;> simp [byteAt, hl, ht]

/-- The bytes of a source do not depend on its read position. -/
@[simp] theorem Source.byteAt_pos (src : Source) (p i : Nat) : ({ src with pos := p } : Source).byteAt i = src.byteAt i := rfl

end Sys2Proof

namespace Sys2Proof.Machine

theorem srcRead_byte {src : Source} {x : Byte} (h : src.byteAt src.pos = some x) :
    srcRead src = (.byte x, { src with pos := src.pos + 1 }) := by simp [srcRead, h]

theorem srcRead_end {src : Source} (h : src.bytes.length ≤ src.pos) (ht : src.term = .endOfStream) :
    srcRead src = (.endOfStream, src) := by simp [srcRead, Source.byteAt_eq_none.mpr ⟨h, .inl ht⟩, ht]

theorem srcRead_err {src : Source} (h : src.bytes.length ≤ src.pos) (ht : src.term = .err) :
    srcRead src = (.err, src) := by simp [srcRead, Source.byteAt_eq_none.mpr ⟨h, .inr ht⟩, ht]

/-- Everything SrcRead() can answer (20_memory.md R22). -/
theorem srcRead_cases (src : Source) :
    (∃ x, src.byteAt src.pos = some x ∧ srcRead src = (.byte x, { src with pos := src.pos + 1 })) ∨
    (src.bytes.length ≤ src.pos ∧ src.term = .endOfStream ∧ srcRead src = (.endOfStream, src)) ∨
    (src.bytes.length ≤ src.pos ∧ src.term = .err ∧ srcRead src = (.err, src)) := by
  cases h : src.byteAt src.pos with
  | some x => exact .inl ⟨x, rfl, srcRead_byte h⟩
  | none =>
    obtain ⟨hl, ht | ht⟩ := Source.byteAt_eq_none.mp h
    · exact .inr (.inl ⟨hl, ht, srcRead_end hl ht⟩)
    · exact .inr (.inr ⟨hl, ht, srcRead_err hl ht⟩)

/-- A source at its end answers the same again and does not move (20_memory.md R34). -/
theorem srcRead_end_sticky {src : Source} (h : (srcRead src).1 = .endOfStream) : (srcRead src).2 = src := by
  rcases srcRead_cases src with ⟨x, -, e⟩ | ⟨-, -, e⟩ | ⟨-, -, e⟩ <;> simp_all

@[simp] theorem outputs_nil : outputs [] = [] := rfl

@[simp] theorem outputs_append (a b : List PullResult) : outputs (a ++ b) = outputs a ++ outputs b := by
  simp [outputs]

@[simp] theorem outputs_out (v : Byte) : outputs [.out v] = [v] := rfl
@[simp] theorem outputs_end : outputs [.endOfStream] = [] := rfl
@[simp] theorem outputs_raised (w : Fault) : outputs [.raised w] = [] := rfl

@[simp] theorem outputs_map_out (vs : List Byte) : outputs (vs.map .out) = vs := by
  simp [outputs, List.filterMap_map]

end Sys2Proof.Machine
end

