-- ==== Sys2Proof/Laws/PerInstr.lean ====
section
/-! SUPPORT. Statements made per operation. `WordShape`: the word of an operation is not empty, and its first byte has bit 3
clear (the table's fixed bit of ENCODE) exactly when the operation is ENCODE. -/

namespace Sys2Proof.Laws.WordShape

open Sys2Proof.Machine

def Statement (i : Instr) : Prop :=
  ∃ b bs, encode i = b :: bs ∧ (rowEncode.matches b = true ↔ ∃ n, i = .encodeNibble n)

theorem of_other {i : Instr} {b : Byte} {bs : List Byte} (h : encode i = b :: bs) (hb : rowEncode.matches b = false)
    (hi : ∀ n, i ≠ .encodeNibble n) : Statement i :=
  ⟨b, bs, h, by simp [hb, hi]⟩

theorem getParity (n : Nib) : Statement (.getParity n) := of_other rfl (by decide) (by simp)

theorem encodeNibble (n : Nib) : Statement (.encodeNibble n) :=
  ⟨_, _, rfl, by
    have h : ∀ n : Nib, rowEncode.matches (encodeNib .literal n) = true := by decide
    simp [h n]⟩

theorem extractData (b : Byte) : Statement (.extractData b) := of_other rfl (by decide) (by simp)
theorem extractParity (b : Byte) : Statement (.extractParity b) := of_other rfl (by decide) (by simp)
theorem encNew (src : Source) : Statement (.encNew src) := of_other rfl (by decide) (by simp)
theorem encNext (k : Nat) : Statement (.encNext k) := of_other rfl (by decide) (by simp)
theorem correct (b : Byte) (expected got : Par) : Statement (.correct b expected got) := of_other rfl (by decide) (by simp)
theorem decode1 (b : Byte) : Statement (.decode1 b) := of_other rfl (by decide) (by simp)
theorem decNew (src : Source) : Statement (.decNew src) := of_other rfl (by decide) (by simp)
theorem decNext (k : Nat) : Statement (.decNext k) := of_other rfl (by decide) (by simp)

end Sys2Proof.Laws.WordShape
end

