-- ==== Sys2Proof/Laws/Pulls.lean ====
section
/-! SUPPORT. What the two pulls can do: every case of their rules, and what exec of a pull amounts to. -/

namespace Sys2Proof.Machine

open Host

theorem pullEncoder_full {v : CodecVariant} {e : Encoder} {c : Byte} (h : e.encBuf = some c) :
    pullEncoder v e = (.out c, { e with encBuf := none }) := by simp [pullEncoder, h]

theorem pullEncoder_byte {v : CodecVariant} {e : Encoder} {x : Byte} (h : e.encBuf = none)
    (hx : e.source.byteAt e.source.pos = some x) :
    pullEncoder v e = (.out (encodeNib v (nibHi x)),
      { e with source := { e.source with pos := e.source.pos + 1 }, encBuf := some (encodeNib v (nibLo x)) }) := by
  simp [pullEncoder, h, Instance.read, srcRead_byte hx]

theorem pullEncoder_end {v : CodecVariant} {e : Encoder} (h : e.encBuf = none)
    (hl : e.source.bytes.length ≤ e.source.pos) (ht : e.source.term = .endOfStream) :
    pullEncoder v e = (.endOfStream, e) := by
  obtain ⟨i, b⟩ := e
  obtain rfl : b = none := h
  simp [pullEncoder, Instance.read, srcRead_end hl ht]

theorem pullEncoder_err {v : CodecVariant} {e : Encoder} (h : e.encBuf = none)
    (hl : e.source.bytes.length ≤ e.source.pos) (ht : e.source.term = .err) :
    pullEncoder v e = (.raised .sourceReadError, { e with failed := true }) := by
  simp [pullEncoder, h, Instance.read, srcRead_err hl ht, Instance.raise]

/-- Everything the body of ENC.NEXT can do (41_encoder.md R61). -/
theorem pullEncoder_cases (v : CodecVariant) (e : Encoder) :
    (∃ c, e.encBuf = some c ∧ pullEncoder v e = (.out c, { e with encBuf := none })) ∨
    (∃ x, e.encBuf = none ∧ e.source.byteAt e.source.pos = some x ∧ pullEncoder v e = (.out (encodeNib v (nibHi x)),
      { e with source := { e.source with pos := e.source.pos + 1 }, encBuf := some (encodeNib v (nibLo x)) })) ∨
    (e.encBuf = none ∧ e.source.bytes.length ≤ e.source.pos ∧ e.source.term = .endOfStream ∧
      pullEncoder v e = (.endOfStream, e)) ∨
    (e.encBuf = none ∧ e.source.bytes.length ≤ e.source.pos ∧ e.source.term = .err ∧
      pullEncoder v e = (.raised .sourceReadError, { e with failed := true })) := by
  by_cases h : e.encBuf = none
  · rcases srcRead_cases e.source with ⟨x, hx, -⟩ | ⟨hl, ht, -⟩ | ⟨hl, ht, -⟩
    · exact .inr (.inl ⟨x, h, hx, pullEncoder_byte h hx⟩)
    · exact .inr (.inr (.inl ⟨h, hl, ht, pullEncoder_end h hl ht⟩))
    · exact .inr (.inr (.inr ⟨h, hl, ht, pullEncoder_err h hl ht⟩))
  · obtain ⟨c, hc⟩ := Option.ne_none_iff_exists'.mp h
    exact .inl ⟨c, hc, pullEncoder_full hc⟩

theorem pullDecoder_pair {cfg : Config} {i : Instance} {b0 b1 : Byte} (h0 : i.source.byteAt i.source.pos = some b0)
    (h1 : i.source.byteAt (i.source.pos + 1) = some b1) :
    pullDecoder cfg i = (.out (joinNibbles (decodeByte cfg.variant b0) (decodeByte cfg.variant b1)),
      { i with source := { i.source with pos := i.source.pos + 2 } }) := by
  have h1' : srcRead { i.source with pos := i.source.pos + 1 } = (.byte b1, { i.source with pos := i.source.pos + 2 }) :=
    srcRead_byte h1
  simp [pullDecoder, Instance.read, srcRead_byte h0, h1']

theorem pullDecoder_end {cfg : Config} {i : Instance} (hl : i.source.bytes.length ≤ i.source.pos)
    (ht : i.source.term = .endOfStream) : pullDecoder cfg i = (.endOfStream, i) := by
  simp [pullDecoder, Instance.read, srcRead_end hl ht]

theorem pullDecoder_err {cfg : Config} {i : Instance} (hl : i.source.bytes.length ≤ i.source.pos)
    (ht : i.source.term = .err) : pullDecoder cfg i = (.raised .sourceReadError, { i with failed := true }) := by
  simp [pullDecoder, Instance.read, srcRead_err hl ht, Instance.raise]

theorem pullDecoder_second_err {cfg : Config} {i : Instance} (hl : i.source.pos + 1 = i.source.bytes.length)
    (ht : i.source.term = .err) : pullDecoder cfg i = (.raised .sourceReadError,
      { i with source := { i.source with pos := i.source.pos + 1 }, failed := true }) := by
  have h0 : i.source.byteAt i.source.pos = some i.source.bytes[i.source.pos] := Source.byteAt_listed (by omega)
  have h1 : srcRead { i.source with pos := i.source.pos + 1 } = (.err, { i.source with pos := i.source.pos + 1 }) :=
    srcRead_err (by simp; omega) ht
  simp [pullDecoder, Instance.read, srcRead_byte h0, h1, Instance.raise]

theorem pullDecoder_odd {cfg : Config} {i : Instance} (hl : i.source.pos + 1 = i.source.bytes.length)
    (ht : i.source.term = .endOfStream) :
    pullDecoder cfg i = oddTail cfg.oddTail { i with source := { i.source with pos := i.source.pos + 1 } } := by
  have h0 : i.source.byteAt i.source.pos = some i.source.bytes[i.source.pos] := Source.byteAt_listed (by omega)
  have h1 : srcRead { i.source with pos := i.source.pos + 1 } = (.endOfStream, { i.source with pos := i.source.pos + 1 }) :=
    srcRead_end (by simp; omega) ht
  simp [pullDecoder, Instance.read, srcRead_byte h0, h1]

/-- Everything the body of DEC.NEXT can do (42_decoder.md R75, R76). -/
theorem pullDecoder_cases (cfg : Config) (i : Instance) :
    (∃ b0 b1, i.source.byteAt i.source.pos = some b0 ∧ i.source.byteAt (i.source.pos + 1) = some b1 ∧
      pullDecoder cfg i = (.out (joinNibbles (decodeByte cfg.variant b0) (decodeByte cfg.variant b1)),
        { i with source := { i.source with pos := i.source.pos + 2 } })) ∨
    (i.source.bytes.length ≤ i.source.pos ∧ i.source.term = .endOfStream ∧ pullDecoder cfg i = (.endOfStream, i)) ∨
    (i.source.bytes.length ≤ i.source.pos ∧ i.source.term = .err ∧
      pullDecoder cfg i = (.raised .sourceReadError, { i with failed := true })) ∨
    (i.source.pos + 1 = i.source.bytes.length ∧ i.source.term = .err ∧ pullDecoder cfg i = (.raised .sourceReadError,
      { i with source := { i.source with pos := i.source.pos + 1 }, failed := true })) ∨
    (i.source.pos + 1 = i.source.bytes.length ∧ i.source.term = .endOfStream ∧ cfg.oddTail = .fault ∧
      pullDecoder cfg i = (.raised .malformedLength,
        { i with source := { i.source with pos := i.source.pos + 1 }, failed := true })) ∨
    (i.source.pos + 1 = i.source.bytes.length ∧ i.source.term = .endOfStream ∧ cfg.oddTail = .discard ∧
      pullDecoder cfg i = (.endOfStream, { i with source := { i.source with pos := i.source.pos + 1 } })) := by
  cases h0 : i.source.byteAt i.source.pos with
  | none =>
    obtain ⟨hl, ht | ht⟩ := Source.byteAt_eq_none.mp h0
    · exact .inr (.inl ⟨hl, ht, pullDecoder_end hl ht⟩)
    · exact .inr (.inr (.inl ⟨hl, ht, pullDecoder_err hl ht⟩))
  | some b0 =>
    cases h1 : i.source.byteAt (i.source.pos + 1) with
    | some b1 => exact .inl ⟨b0, b1, rfl, rfl, pullDecoder_pair h0 h1⟩
    | none =>
      obtain ⟨hl, hT⟩ := Source.byteAt_eq_none.mp h1
      have hp : i.source.pos < i.source.bytes.length := by
        by_contra hn
        rw [Source.byteAt_eq_none.mpr ⟨by omega, hT⟩] at h0
        cases h0
      have hl : i.source.pos + 1 = i.source.bytes.length := by omega
      rcases hT with ht | ht
      · cases hc : cfg.oddTail with
        | fault => exact .inr (.inr (.inr (.inr (.inl ⟨hl, ht, rfl, by rw [pullDecoder_odd hl ht, hc]; rfl⟩))))
        | discard => exact .inr (.inr (.inr (.inr (.inr ⟨hl, ht, rfl, by rw [pullDecoder_odd hl ht, hc]; rfl⟩))))
      · exact .inr (.inr (.inr (.inl ⟨hl, ht, pullDecoder_second_err hl ht⟩)))

/-- ENC.NEXT of an encoder that exists and has not failed is its pull. -/
theorem execEncNext_admitted {s : State} {k : Nat} {e : Encoder} (h : s.encoders[k]? = some e) (hf : e.failed = false) :
    execEncNext k s = .next ((s.setEncoder k { (pullEncoder s.cfg.variant e).2 with
      toInstance := (pullEncoder s.cfg.variant e).2.toInstance.record (pullEncoder s.cfg.variant e).1 }).withAnswer
        (.pull (pullEncoder s.cfg.variant e).1)) := by
  simp [execEncNext, h, Instance.admitted, hf]

/-- DEC.NEXT of a decoder that exists and has not failed is its pull. -/
theorem execDecNext_admitted {s : State} {k : Nat} {d : Decoder} (h : s.decoders[k]? = some d) (hf : d.failed = false) :
    execDecNext k s = .next ((s.setDecoder k { toInstance :=
      (pullDecoder s.cfg d.toInstance).2.record (pullDecoder s.cfg d.toInstance).1 }).withAnswer
        (.pull (pullDecoder s.cfg d.toInstance).1)) := by
  simp [execDecNext, h, Instance.admitted, hf]

/-- ENC.NEXT answers a next state only of an encoder that exists and has not failed. -/
theorem execEncNext_next {s t : State} {k : Nat} (h : execEncNext k s = .next t) :
    ∃ e, s.encoders[k]? = some e ∧ e.failed = false ∧
      t = (s.setEncoder k { (pullEncoder s.cfg.variant e).2 with
        toInstance := (pullEncoder s.cfg.variant e).2.toInstance.record (pullEncoder s.cfg.variant e).1 }).withAnswer
          (.pull (pullEncoder s.cfg.variant e).1) := by
  cases he : s.encoders[k]? with
  | none => simp [execEncNext, he] at h
  | some e =>
    cases hf : e.failed with
    | true => simp [execEncNext, he, Instance.admitted, hf] at h
    | false => rw [execEncNext_admitted he hf] at h; exact ⟨e, rfl, hf, by injection h with h; exact h.symm⟩

/-- DEC.NEXT answers a next state only of a decoder that exists and has not failed. -/
theorem execDecNext_next {s t : State} {k : Nat} (h : execDecNext k s = .next t) :
    ∃ d, s.decoders[k]? = some d ∧ d.failed = false ∧
      t = (s.setDecoder k { toInstance :=
        (pullDecoder s.cfg d.toInstance).2.record (pullDecoder s.cfg d.toInstance).1 }).withAnswer
          (.pull (pullDecoder s.cfg d.toInstance).1) := by
  cases hd : s.decoders[k]? with
  | none => simp [execDecNext, hd] at h
  | some d =>
    cases hf : d.failed with
    | true => simp [execDecNext, hd, Instance.admitted, hf] at h
    | false => rw [execDecNext_admitted hd hf] at h; exact ⟨d, rfl, hf, by injection h with h; exact h.symm⟩

end Sys2Proof.Machine
end

