-- ==== Sys2Proof/Laws/Streams.lean ====
section
/-! SUPPORT. The whole-stream functions, the states after a pull, and the runs: their own small lemmas. -/

namespace Sys2Proof

/-- One more byte delivered. -/
theorem Source.delivered_succ {src : Source} {x : Byte} (h : src.byteAt src.pos = some x) :
    ({ src with pos := src.pos + 1 } : Source).delivered = src.delivered ++ [x] := by
  simp [delivered, List.range_succ, h, show ({ src with pos := src.pos + 1 } : Source).byteAt = src.byteAt from rfl]

@[simp] theorem Source.delivered_zero (bytes : List Byte) (term : Terminal) : (⟨bytes, term, 0⟩ : Source).delivered = [] := rfl

/-- As many bytes have been delivered as the read position says. -/
theorem Source.delivered_length {src : Source} (h : src.ends = true → src.pos ≤ src.bytes.length) :
    src.delivered.length = src.pos := by
  obtain ⟨bytes, term, pos⟩ := src
  have key : ∀ p, (Source.ends ⟨bytes, term, pos⟩ = true → p ≤ bytes.length) → (⟨bytes, term, p⟩ : Source).delivered.length = p := by
    intro p
    induction p with
    | zero => intro _; rfl
    | succ p ih =>
      intro hp
      have hx : ∃ x, (⟨bytes, term, p⟩ : Source).byteAt p = some x := by
        cases term with
        | never n => exact byteAt_of_never rfl p
        | endOfStream => exact ⟨_, byteAt_listed (show p < bytes.length from hp rfl)⟩
        | err => exact ⟨_, byteAt_listed (show p < bytes.length from hp rfl)⟩
      obtain ⟨x, hx⟩ := hx
      have hs := delivered_succ hx
      rw [show (⟨bytes, term, p + 1⟩ : Source).delivered = _ from hs]
      simp [ih (fun he => by have := hp he; omega)]
  exact key pos h

/-- Among its listed bytes, a source has delivered exactly those before its read position. -/
theorem Source.delivered_eq_take {src : Source} (h : src.pos ≤ src.bytes.length) : src.delivered = src.bytes.take src.pos := by
  obtain ⟨bytes, term, pos⟩ := src
  induction pos with
  | zero => rfl
  | succ p ih =>
    have hl : p < bytes.length := h
    have hs := delivered_succ (src := ⟨bytes, term, p⟩) (byteAt_listed hl)
    rw [show (⟨bytes, term, p + 1⟩ : Source).delivered = _ from hs, ih (by simp; omega)]
    simp

end Sys2Proof

namespace Sys2Proof.Machine

open Host

@[simp] theorem encodedStream_nil (v : CodecVariant) : encodedStream v [] = [] := rfl

@[simp] theorem encodedStream_cons (v : CodecVariant) (x : Byte) (xs : List Byte) :
    encodedStream v (x :: xs) = encodeNib v (nibHi x) :: encodeNib v (nibLo x) :: encodedStream v xs := rfl

theorem encodedStream_append (v : CodecVariant) (xs ys : List Byte) :
    encodedStream v (xs ++ ys) = encodedStream v xs ++ encodedStream v ys := by
  simp [encodedStream]

/-- Bytes appended after whole pairs are decoded on their own (42_decoder.md R82). -/
theorem decodedStream_append (v : CodecVariant) :
    ∀ xs ys : List Byte, xs.length % 2 = 0 → decodedStream v (xs ++ ys) = decodedStream v xs ++ decodedStream v ys
  | [], _, _ => rfl
  | [_], _, h => by simp at h
  | x :: y :: xs, ys, h => by
    simp only [List.cons_append, decodedStream]
    rw [decodedStream_append v xs ys (by simp at h; omega)]

@[simp] theorem State.afterEncPull_cfg (s : State) (k : Nat) (e : Encoder) (r : PullResult) :
    (s.afterEncPull k e r).cfg = s.cfg := rfl

@[simp] theorem State.afterDecPull_cfg (s : State) (k : Nat) (d : Decoder) (r : PullResult) :
    (s.afterDecPull k d r).cfg = s.cfg := rfl

/-- The encoder a pull has changed, read back. -/
theorem State.afterEncPull_get {s : State} {k : Nat} (h : k < s.encoders.length) (e : Encoder) (r : PullResult) :
    (s.afterEncPull k e r).encoders[k]? = some { e with results := e.results ++ [r] } := by
  simp [State.afterEncPull, h]

/-- The decoder a pull has changed, read back. -/
theorem State.afterDecPull_get {s : State} {k : Nat} (h : k < s.decoders.length) (d : Decoder) (r : PullResult) :
    (s.afterDecPull k d r).decoders[k]? = some { d with results := d.results ++ [r] } := by
  simp [State.afterDecPull, h]

theorem runSteps_zero (s : State) : runSteps 0 s = .next s := rfl

theorem coreRun_succ (M : Host.Core) (n : Nat) (s : M.State) :
    M.run (n + 1) s =
      match M.step s with
      | .next t => M.run n t
      | .fault f => .fault f
      | .refused r => .refused r := by
  cases h : M.step s <;> simp only [Host.Core.run, h]

/-- What one more step of a run does. -/
theorem runSteps_succ (n : Nat) (s : State) :
    runSteps (n + 1) s =
      match step s with
      | .next t => runSteps n t
      | .fault f => .fault f
      | .refused r => .refused r := by
  have run := coreRun_succ Sys2Proof.core n s
  cases h : step s with
  | next t => rw [show Sys2Proof.core.step s = .next t from h] at run; exact run
  | fault f => rw [show Sys2Proof.core.step s = .fault f from h] at run; exact run
  | refused r => rw [show Sys2Proof.core.step s = .refused r from h] at run; exact run

end Sys2Proof.Machine
end

