-- ==== Sys2Proof/Tests/Slice0.lean ====
section
/-! SUPPORT. The model's own tests: values from the worked examples and tables of the rules and of 95_test_vectors.md, words
written out by hand, the smoke tests of WellFormed, and a witness for the hypotheses of every statement. -/

namespace Sys2Proof.Tests

open Host Sys2Proof.Machine

def nextOf : Outcome State Fault Refusal → Option State
  | .next s => some s
  | .fault _ => none
  | .refused _ => none

def answerOf (o : Outcome State Fault Refusal) : Option Answer := (nextOf o).bind State.answer

def refusalOf : Outcome State Fault Refusal → Option Refusal
  | .next _ => none
  | .fault _ => none
  | .refused r => some r

/-- An encoder: a source at a position, a buffer and a mark. -/
def encAt (bytes : List Byte) (term : Terminal) (pos : Nat) (buf : Option Byte) (failed : Bool) : Encoder :=
  { source := ⟨bytes, term, pos⟩, failed := failed, results := [], encBuf := buf }

/-- A decoder: a source at a position, and a mark. -/
def decAt (bytes : List Byte) (term : Terminal) (pos : Nat) (failed : Bool) : Decoder :=
  { source := ⟨bytes, term, pos⟩, failed := failed, results := [] }

/-- A machine with one encoder. -/
def withEnc (bytes : List Byte) (term : Terminal) (pos : Nat) (buf : Option Byte) (failed : Bool) : State :=
  { State.reset with encoders := [encAt bytes term pos buf failed] }

/-- A machine with one decoder, under a policy. -/
def withDec (policy : OddTailPolicy) (bytes : List Byte) (term : Terminal) (pos : Nat) (failed : Bool) : State :=
  { State.reset with
    cfg := ⟨policy, .literal⟩
    decoders := [decAt bytes term pos failed] }

/-- The machine at reset in the variant low7. -/
def low7 : State := { State.reset with cfg := ⟨.fault, .low7⟩ }

/-- The one encoder's position, buffer and mark after an operation. -/
def encAfter (o : Outcome State Fault Refusal) : Option (List (Nat × Option Byte × Bool)) :=
  (nextOf o).map fun s => s.encoders.map fun e => (e.source.pos, e.encBuf, e.failed)

/-- The one decoder's position and mark after an operation. -/
def decAfter (o : Outcome State Fault Refusal) : Option (List (Nat × Bool)) :=
  (nextOf o).map fun s => s.decoders.map fun d => (d.source.pos, d.failed)

/-! ## WellFormed -/

theorem test_encNew_of_a_read_source_is_ill_formed : (Instr.encNew ⟨[0xAB#8], .endOfStream, 1⟩).wf = false := by decide
theorem test_decNew_of_a_read_source_is_ill_formed : (Instr.decNew ⟨[0xA2#8], .err, 1⟩).wf = false := by decide
theorem test_encNew_of_an_unread_source_is_well_formed : (Instr.encNew ⟨[0xAB#8], .endOfStream, 0⟩).wf = true := by decide

/-! ## Decoding: words written out bit by bit -/

theorem test_decode_encode : decodeRequest [0b10100101#8] = .ok (.encodeNibble 0b1011#4) [] := by decide
theorem test_decode_getParity : decodeRequest [0b00001000#8, 0b00001010#8] = .ok (.getParity 0b1010#4) [] := by decide
theorem test_decode_extractData : decodeRequest [0b00001001#8, 0b10100101#8] = .ok (.extractData 0b10100101#8) [] := by
  decide
theorem test_decode_extractParity : decodeRequest [0b00001010#8, 0b00010011#8] = .ok (.extractParity 0b00010011#8) [] := by
  decide
theorem test_decode_encNew :
    decodeRequest [0b00001011#8, 1#8, 0xAB#8, 1#8, 0xCD#8, 2#8] = .ok (.encNew ⟨[0xAB#8, 0xCD#8], .err, 0⟩) [] := by decide
theorem test_decode_endless_source :
    decodeRequest [0b00001111#8, 1#8, 0xA2#8, 3#8, 1#8, 1#8, 0#8] = .ok (.decNew ⟨[0xA2#8], .never 2, 0⟩) [] := by decide
theorem test_decode_encNext : decodeRequest [0b00001100#8, 1#8, 1#8, 0#8] = .ok (.encNext 2) [] := by decide
theorem test_decode_correct :
    decodeRequest [0b00001101#8, 0xB2#8, 0b00000010#8, 0b00000110#8] = .ok (.correct 0xB2#8 0b010#3 0b110#3) [] := by decide
theorem test_decode_decode1 : decodeRequest [0b00001110#8, 0x10#8] = .ok (.decode1 0x10#8) [] := by decide
theorem test_decode_decNew : decodeRequest [0b00001111#8, 0#8] = .ok (.decNew ⟨[], .endOfStream, 0⟩) [] := by decide
theorem test_decode_decNext : decodeRequest [0b00011000#8, 0#8] = .ok (.decNext 0) [] := by decide
theorem test_decode_rejects_unknown : decodeRequest [0b11111111#8] = .reject .unknownOperation := by decide
theorem test_decode_rejects_short : decodeRequest [0b00001101#8, 0xB2#8] = .reject .truncated := by decide
theorem test_decode_rejects_reserved : decodeRequest [0b00001000#8, 0b00011010#8] = .reject .reservedBits := by decide
theorem test_decode_rejects_bad_tag : decodeRequest [0b00001100#8, 3#8] = .reject .badTag := by decide
theorem test_decode_rejects_trailing : decodeRequest [0b10100101#8, 0#8] = .reject .trailingBytes := by decide
theorem test_table_word_encode : decodeTableWord 8 0 = some (.encodeNibble 0#4) := by decide
theorem test_table_word_padded : decodeTableWord 8 0x0C = some (.encNext 0) := by decide
theorem test_table_word_two_bytes : decodeTableWord 16 0xA50E = some (.decode1 0xA5#8) := by decide

/-! ## The operations: worked examples of the rules and 95_test_vectors.md -/

theorem test_getParity : answerOf (exec (.getParity 0b1010#4) State.reset) = some (.par 0b010#3) := by decide
theorem test_encode : answerOf (exec (.encodeNibble 0b1010#4) State.reset) = some (.byte 0xA2#8) := by decide
/-- The column ENCODE(0..15) of D10's appendix, value 13. -/
theorem test_encode_low7 : answerOf (exec (.encodeNibble 0xD#4) low7) = some (.byte 0x66#8) := by decide
theorem test_extractData : answerOf (exec (.extractData 0xEC#8) State.reset) = some (.nib 0xF#4) := by decide
theorem test_extractParity : answerOf (exec (.extractParity 0xA5#8) State.reset) = some (.par 0b001#3) := by decide
theorem test_correct_zero : answerOf (exec (.correct 0xA2#8 0b010#3 0b010#3) State.reset) = some (.byte 0xA3#8) := by decide
theorem test_correct_d0 : answerOf (exec (.correct 0xB2#8 0b010#3 0b110#3) State.reset) = some (.byte 0xB6#8) := by decide
theorem test_decode1_p2 : answerOf (exec (.decode1 0x10#8) State.reset) = some (.nib 1#4) := by decide
/-- Section 2.4, rows 2x and Dx. -/
theorem test_decode1_row_two : (List.range 16).map (fun c => (decodeByte .literal (BitVec.ofNat 8 (0x20 + c))).toNat) =
    [3, 3, 2, 2, 3, 3, 2, 2, 3, 3, 2, 2, 3, 3, 2, 2] := by decide
theorem test_decode1_row_thirteen : (List.range 16).map (fun c => (decodeByte .literal (BitVec.ofNat 8 (0xD0 + c))).toNat) =
    [13, 13, 12, 12, 13, 13, 12, 12, 13, 13, 12, 12, 13, 13, 12, 12] := by decide
theorem test_encNew : (nextOf (exec (.encNew ⟨[0xAB#8], .err, 0⟩) State.reset)).map (fun s => (s.encoders.length, s.answer)) =
    some (2, some (.encoder 1)) := by decide
theorem test_decNew : (nextOf (exec (.decNew ⟨[0xA2#8], .err, 0⟩) State.reset)).map (fun s => (s.decoders.length, s.answer)) =
    some (2, some (.decoder 1)) := by decide
theorem test_encNext_byte : answerOf (exec (.encNext 0) (withEnc [0x7F#8] .endOfStream 0 none false)) =
    some (.pull (.out 0x64#8)) := by decide
theorem test_encNext_buffer : encAfter (exec (.encNext 0) (withEnc [0x7F#8] .endOfStream 0 none false)) =
    some [(1, some 0xF7#8, false)] := by decide
theorem test_decNext_pair : answerOf (exec (.decNext 0) (withDec .fault [0x10#8, 0x20#8] .endOfStream 0 false)) =
    some (.pull (.out 0x13#8)) := by decide
/-- P4: the unpaired byte is consumed. -/
theorem test_decNext_odd : decAfter (exec (.decNext 0) (withDec .fault [0xA2#8, 0xA5#8, 0xC1#8] .endOfStream 2 false)) =
    some [(3, true)] := by decide
/-- P5: a failure inside a pair is SourceReadError, not MalformedLength. -/
theorem test_decNext_inside_pair : answerOf (exec (.decNext 0) (withDec .fault [0xA2#8, 0xA5#8, 0xC1#8] .err 2 false)) =
    some (.pull (.raised .sourceReadError)) := by decide
/-- R21: after its listed bytes a source without a terminal answer delivers the bytes of its endless stream. -/
theorem test_encNext_endless : answerOf (exec (.encNext 0) (withEnc [0xAB#8] (.never 7) 1 none false)) =
    some (.pull (.out (encodeNib .literal (nibHi (Config.endlessByte 7 1))))) := rfl
theorem test_decNext_endless : decAfter (exec (.decNext 0) (withDec .fault [0xA2#8] (.never 7) 0 false)) =
    some [(2, false)] := rfl

/-! ## Witnesses: states and operands that meet the hypotheses of the statements -/

/-- `s.cfg.variant = .literal` (fifteen statements), with the operation completing there. -/
theorem witness_literal : State.reset.cfg.variant = .literal := by decide
theorem witness_low7 : low7.cfg.variant = .low7 := by decide

theorem witness_PureOperations : pureOperation (.decode1 0xA2#8) = true ∧
    State.reset.cfg.variant = .literal ∧ (withDec .discard [] .err 0 true).cfg.variant = .literal := by decide

theorem witness_SixteenConformingCodewords : (0#4 : Nib) ≠ 15#4 ∧
    answerOf (exec (.encodeNibble 0#4) State.reset) = some (.byte 0x00#8) ∧
    answerOf (exec (.encodeNibble 15#4) State.reset) = some (.byte 0xF7#8) := by decide

/-- A sound encoder in mid-byte: source AB, position 1, A2 yielded, A5 buffered (P7). -/
def midByteEncoder : Encoder :=
  { source := ⟨[0xAB#8], .endOfStream, 1⟩, failed := false, results := [.out 0xA2#8], encBuf := some 0xA5#8 }
def midByte : State :=
  { State.reset with
    encoders := [midByteEncoder]
    pending := [encode (.encNext 0)] }

theorem witness_EncNext_full : ∃ e : Encoder, midByte.encoders[0]? = some e ∧ e.failed = false ∧ e.encBuf = some 0xA5#8 :=
  ⟨midByteEncoder, rfl, by decide, by decide⟩
theorem witness_EncNext_byte : ∃ e : Encoder, (withEnc [0xAB#8] .err 0 none false).encoders[0]? = some e ∧ e.failed = false ∧
    e.encBuf = none ∧ e.source.byteAt e.source.pos = some 0xAB#8 := ⟨encAt [0xAB#8] .err 0 none false, rfl, by decide, by decide, by decide⟩
theorem witness_EncNext_end : ∃ e : Encoder, (withEnc [0xAB#8] .endOfStream 1 none false).encoders[0]? = some e ∧ e.failed = false ∧
    e.encBuf = none ∧ e.source.bytes.length ≤ e.source.pos ∧ e.source.term = .endOfStream :=
  ⟨encAt [0xAB#8] .endOfStream 1 none false, rfl, by decide, by decide, by decide, by decide⟩
theorem witness_EncNext_err : ∃ e : Encoder, (withEnc [0xAB#8] .err 1 none false).encoders[0]? = some e ∧ e.failed = false ∧
    e.encBuf = none ∧ e.source.bytes.length ≤ e.source.pos ∧ e.source.term = .err :=
  ⟨encAt [0xAB#8] .err 1 none false, rfl, by decide, by decide, by decide, by decide⟩

theorem witness_DecNext_pair : ∃ d : Decoder, (withDec .fault [0xA2#8, 0xA5#8] .err 0 false).decoders[0]? = some d ∧
    d.failed = false ∧ d.source.byteAt d.source.pos = some 0xA2#8 ∧ d.source.byteAt (d.source.pos + 1) = some 0xA5#8 :=
  ⟨decAt [0xA2#8, 0xA5#8] .err 0 false, rfl, by decide, by decide, by decide⟩
theorem witness_DecNext_end : ∃ d : Decoder, (withDec .fault [0xA2#8, 0xA5#8] .endOfStream 2 false).decoders[0]? = some d ∧
    d.failed = false ∧ d.source.bytes.length ≤ d.source.pos ∧ d.source.term = .endOfStream :=
  ⟨decAt [0xA2#8, 0xA5#8] .endOfStream 2 false, rfl, by decide, by decide, by decide⟩
theorem witness_DecNext_err : ∃ d : Decoder, (withDec .fault [] .err 0 false).decoders[0]? = some d ∧ d.failed = false ∧
    d.source.bytes.length ≤ d.source.pos ∧ d.source.term = .err := ⟨decAt [] .err 0 false, rfl, by decide, by decide, by decide⟩
theorem witness_DecNext_second_err : ∃ d : Decoder, (withDec .fault [0xC1#8] .err 0 false).decoders[0]? = some d ∧ d.failed = false ∧
    d.source.pos + 1 = d.source.bytes.length ∧ d.source.term = .err := ⟨decAt [0xC1#8] .err 0 false, rfl, by decide, by decide, by decide⟩
theorem witness_DecNext_odd (policy : OddTailPolicy) : ∃ d : Decoder,
    (withDec policy [0xC1#8] .endOfStream 0 false).decoders[0]? = some d ∧ d.failed = false ∧
    d.source.pos + 1 = d.source.bytes.length ∧ d.source.term = .endOfStream ∧
    (withDec policy [0xC1#8] .endOfStream 0 false).cfg.oddTail = policy := ⟨decAt [0xC1#8] .endOfStream 0 false, rfl, rfl, rfl, rfl, rfl⟩

/-- A pull that raises, of each kind (RaisingAPullFailsTheInstanceForGood, APullChangesOnlyItsOwnInstance). -/
theorem witness_raise_encoder : answerOf (exec (.encNext 0) (withEnc [] .err 0 none false)) =
    some (.pull (.raised .sourceReadError)) := by decide
theorem witness_raise_decoder : answerOf (exec (.decNext 0) (withDec .fault [0xA2#8] .endOfStream 0 false)) =
    some (.pull (.raised .malformedLength)) := by decide
/-- Another operation beside a failed instance, and a pull of one. -/
theorem witness_failed_encoder : (withEnc [] .err 0 none true).encoders[0]?.map (·.failed) = some true ∧
    (nextOf (exec (.decNext 0) (withEnc [] .err 0 none true))).isSome = true ∧
    refusalOf (exec (.encNext 0) (withEnc [] .err 0 none true)) = some .failedInstance := by decide
theorem witness_failed_decoder : (withDec .fault [] .err 0 true).decoders[0]?.map (·.failed) = some true ∧
    (nextOf (exec (.encNext 0) (withDec .fault [] .err 0 true))).isSome = true ∧
    refusalOf (exec (.decNext 0) (withDec .fault [] .err 0 true)) = some .failedInstance := by decide

/-- One encoder (decoder) under two numbers of two machines. -/
theorem witness_InstancesAreIndependent :
    (withEnc [0xAB#8] .err 0 none false).cfg = State.reset.cfg ∧
    (({ State.reset with encoders := .fresh ⟨[], .err, 0⟩ :: (withEnc [0xAB#8] .err 0 none false).encoders } : State).encoders[1]?
      = (withEnc [0xAB#8] .err 0 none false).encoders[0]?) ∧
    ((withEnc [0xAB#8] .err 0 none false).encoders[0]?.map (·.failed) = some false) ∧
    State.reset.decoders[0]? = (withEnc [0xAB#8] .err 0 none false).decoders[0]? := by decide

/-- midByte meets the invariant and has a next step (StepKeepsTheInstancesSound, StepsOnlyMoveInstancesForward). -/
theorem witness_midByte_sound : midByte.Inv := by
  refine ⟨?_, ?_⟩
  · intro e he
    obtain rfl : e = _ := List.mem_singleton.mp he
    exact ⟨⟨by decide, by simp [midByteEncoder], by simp [midByteEncoder], by simp [midByteEncoder]⟩, by decide,
      by simp [midByteEncoder], by simp [midByteEncoder], by simp [midByteEncoder]⟩
  · intro d hd
    obtain rfl : d = _ := List.mem_singleton.mp hd
    exact ⟨⟨by decide, by simp, by simp [resetSource], by simp⟩, by decide, by decide⟩
theorem witness_midByte_steps : answerOf (step midByte) = some (.pull (.out 0xA5#8)) := by decide

/-- BufferHoldsTheLowerNibblesCodeword, EncoderYieldsOnlyCodewords: with witness_midByte_sound. -/
theorem witness_midByte_buffer : midByte.cfg.variant = .literal ∧ (midByte.encoders.map (·.encBuf)) = [some 0xA5#8] ∧
    answerOf (exec (.encNext 0) midByte) = some (.pull (.out 0xA5#8)) := by decide
/-- EncoderYieldsOnlyCodewords, second clause: a fresh encoder in a machine that is sound by FreshInstancesAreSound. -/
theorem witness_accepts_every_byte : ∃ e : Encoder, (State.reset.addEncoder (.fresh ⟨[0xFF#8], .err, 0⟩)).encoders[1]? = some e ∧
    e.failed = false ∧ e.encBuf = none ∧ e.source.byteAt e.source.pos = some 0xFF#8 :=
  ⟨.fresh ⟨[0xFF#8], .err, 0⟩, rfl, by decide, by decide, by decide⟩

/-- ResetIsConstruction: both constructions answer a next state. -/
theorem witness_constructions : (nextOf (exec (.encNew ⟨[1#8], .err, 0⟩) State.reset)).isSome = true ∧
    (nextOf (exec (.decNew ⟨[1#8], .err, 0⟩) State.reset)).isSome = true := by decide

/-- EndIsAnsweredAgain: an encoder, a decoder, and a decoder's odd tail under `discard`. -/
theorem witness_end : answerOf (exec (.encNext 0) State.reset) = some (.pull .endOfStream) ∧
    answerOf (exec (.decNext 0) State.reset) = some (.pull .endOfStream) ∧
    answerOf (exec (.decNext 0) (withDec .discard [0xA2#8] .endOfStream 0 false)) = some (.pull .endOfStream) := by decide

/-- StepIsRefusedExactlyWhen: each case. -/
theorem witness_refusals : refusalOf (step (State.reset.withPending [[0xFF#8]])) = some (.badRequest .unknownOperation) ∧
    refusalOf (step (State.reset.withPending [encode (.encNext 7)])) = some .noSuchInstance ∧
    refusalOf (step ((withDec .fault [] .err 0 true).withPending [encode (.decNext 0)])) = some .failedInstance := by decide

/-- StepRunsTheRequestedOperation: a request that decodes, no request, and a table word. -/
theorem witness_step : decodeRequest (encode (.encNext 0)) = .ok (.encNext 0) [] ∧ (Instr.encNext 0).wf = true ∧
    State.reset.pending = [] ∧ decodeTableWord 8 0xA2 = some (.encodeNibble 0xA#4) := by decide
theorem witness_fetch_word : answerOf (step (State.reset.withFetchWord 8 0xA2)) = some (.byte 0xA2#8) := by decide

/-- DecodingAnEncodedOperationGivesItBack, DecodedWordsAreTheEncodersWords, QueuedRequestsRunInOrder. -/
theorem witness_wf : (Instr.decNew ⟨[0xA2#8], .endOfStream, 0⟩).wf = true := by decide
theorem witness_decoded : decode [0x0E#8, 0x10#8, 0xFF#8] = .ok (.decode1 0x10#8) [0xFF#8] ∧
    decode [0b10110111#8, 0x01#8] = .ok (.encodeNibble 0b1011#4) [0x01#8] := by decide

/-- EncoderRunYieldsTheWholeStream, DecoderRunYieldsTheWholeStream: fresh instances around sources that end in End and in
Err, of even and of odd length. -/
theorem witness_fresh_encoder (t : Terminal) :
    (State.reset.addEncoder (.fresh ⟨[0xAB#8, 0xCD#8], t, 0⟩)).encoders[1]? = some (.fresh ⟨[0xAB#8, 0xCD#8], t, 0⟩) := rfl
theorem witness_fresh_decoder (t : Terminal) :
    (State.reset.addDecoder (.fresh ⟨[0xA2#8, 0xA5#8, 0xC1#8], t, 0⟩)).decoders[1]? =
      some (.fresh ⟨[0xA2#8, 0xA5#8, 0xC1#8], t, 0⟩) := rfl
theorem witness_fresh_decoder_even : (State.reset.addDecoder (.fresh ⟨[], .endOfStream, 0⟩)).decoders[1]? =
    some (.fresh ⟨[], .endOfStream, 0⟩) ∧ (withDec .discard [] .err 0 false).cfg.oddTail = .discard := by decide

/-- StreamElementsByPosition: the last byte and the last pair of a stream. -/
theorem witness_positions : ([0xAB#8, 0xCD#8] : List Byte)[1]? = some 0xCD#8 ∧
    ([0xA2#8, 0xA5#8, 0xC1#8, 0xC6#8] : List Byte)[2 * 1]? = some 0xC1#8 ∧
    ([0xA2#8, 0xA5#8, 0xC1#8, 0xC6#8] : List Byte)[2 * 1 + 1]? = some 0xC6#8 := by decide

/-- EveryRunEndsInTime: an encoder with a full buffer and a decoder inside a pair, neither failed, of finite sources. -/
theorem witness_unfinished : (midByte.encoders.map fun e => (e.failed, e.source.ends)) = [(false, true)] ∧
    ((withDec .fault [0xA2#8] .err 0 false).decoders.map fun d => (d.failed, d.source.ends)) = [(false, true)] := by decide

/-- EndlessSourceMakesEveryPullYieldAByte: an encoder with a byte buffered, and a decoder before an odd number of listed
bytes; SourceDeliversItsBytesInOrder: the first position after the listed bytes. -/
theorem witness_endless : (withEnc [0xAB#8] (.never 7) 1 (some 0xA5#8) false).encoders.map (fun e => (e.failed, e.source.term)) =
      [(false, .never 7)] ∧
    (withDec .fault [0xA2#8] (.never 7) 0 false).decoders.map (fun d => (d.failed, d.source.term)) = [(false, .never 7)] ∧
    (⟨[0xA2#8], .endOfStream, 1⟩ : Source).byteAt 1 = none ∧ (⟨[0xA2#8], .err, 1⟩ : Source).byteAt 1 = none := by decide

end Sys2Proof.Tests
end

/-! PROOFS. The queue of requests: an operation's word is read back, an operation looks at no request, and so the machine's
run is the run of the queued operations (log 3). -/

namespace Sys2Proof

open Sys2Proof.Machine

/-- An operation with one operand, read once its operand is. -/
theorem Parse.andThen_one_operand {α β : Type} {p : Parse α} {x : α} {rest : List Byte} (h : p = .ok x rest) (f : α → β) :
    (p.andThen fun y r => .ok (f y) r) = .ok (f x) rest := by rw [h, Parse.andThen_ok]

/-- A source handed over at its first byte is read back from its bytes. -/
theorem takeSource_put_of_unread {src : Source} (h : src.unread = true) (rest : List Byte) :
    takeSource (putSource src ++ rest) = .ok src rest := by
  obtain ⟨bytes, term, pos⟩ := src
  obtain rfl : pos = 0 := by simpa [Source.unread] using h
  exact takeSource_put bytes term 0 rest

/-- The decoder reads a well-formed operation back from its word and leaves the bytes after it. -/
theorem decode_encode_append {i : Instr} (h : i.wf = true) (rest : List Byte) : decode (encode i ++ rest) = .ok i rest := by
  cases i with
  | getParity n => exact Parse.andThen_one_operand (takeNib_put n rest) Instr.getParity
  | encodeNibble n =>
    obtain ⟨b, bs, hword, hrow⟩ := Laws.WordShape.encodeNibble n
    obtain ⟨rfl, rfl⟩ : encodeNib .literal n = b ∧ [] = bs := by simpa [encode] using hword
    have hdata : gatherData .literal (encodeNib .literal n) = n := extractData_encodeNib .literal n
    simp [encode, decode, hrow, hdata]
  | extractData b => rfl
  | extractParity b => rfl
  | encNew src => exact Parse.andThen_one_operand (takeSource_put_of_unread h rest) Instr.encNew
  | encNext k => exact Parse.andThen_one_operand (takeNumber_put k rest) Instr.encNext
  | correct b e g =>
    calc decode (encode (.correct b e g) ++ rest)
        = (takePar ((0#5 ++ e : Byte) :: (0#5 ++ g : Byte) :: rest)).andThen fun e r =>
            (takePar r).andThen fun g r' => .ok (.correct b e g) r' := rfl
      _ = .ok (.correct b e g) rest := by simp only [takePar_put, Parse.andThen_ok]
  | decode1 b => rfl
  | decNew src => exact Parse.andThen_one_operand (takeSource_put_of_unread h rest) Instr.decNew
  | decNext k => exact Parse.andThen_one_operand (takeNumber_put k rest) Instr.decNext

/-- The word of a well-formed operation is a request for it. -/
theorem decodeRequest_encode {i : Instr} (h : i.wf = true) : decodeRequest (encode i) = .ok i [] := by
  have hdecode : decode (encode i) = .ok i [] := by simpa using decode_encode_append h []
  simp [decodeRequest, hdecode]

end Sys2Proof

namespace Sys2Proof.Machine

open Host

/-- What an operation answers, with other requests pending in the next state. -/
def answerWithPending (q : List (List Byte)) : Outcome State Fault Refusal → Outcome State Fault Refusal
  | .next t => .next (t.withPending q)
  | .fault f => .fault f
  | .refused r => .refused r

@[simp] theorem State.withPending_withPending (s : State) (p q : List (List Byte)) :
    (s.withPending p).withPending q = s.withPending q := rfl

/-- ENC.NEXT reads and changes no request. -/
theorem execEncNext_withPending (k : Nat) (s : State) (q : List (List Byte)) :
    execEncNext k (s.withPending q) = answerWithPending q (execEncNext k s) := by
  unfold execEncNext
  rw [State.withPending_encoders]
  cases s.encoders[k]? with
  | none => rfl
  | some e => cases h : e.admitted <;> simp only [h] <;> rfl

/-- DEC.NEXT reads and changes no request. -/
theorem execDecNext_withPending (k : Nat) (s : State) (q : List (List Byte)) :
    execDecNext k (s.withPending q) = answerWithPending q (execDecNext k s) := by
  unfold execDecNext
  rw [State.withPending_decoders]
  cases s.decoders[k]? with
  | none => rfl
  | some d => cases h : d.admitted <;> simp only [h] <;> rfl

/-- No operation looks at the pending requests or changes them: with others pending it answers the same, and they are
pending after it (00_scope.md R8; log 3). -/
theorem exec_withPending (i : Instr) (s : State) (q : List (List Byte)) :
    exec i (s.withPending q) = answerWithPending q (exec i s) := by
  cases i with
  | encNext k => exact execEncNext_withPending k s q
  | decNext k => exact execDecNext_withPending k s q
  | getParity | encodeNibble | extractData | extractParity | encNew | correct | decode1 | decNew => rfl

/-- A step with a well-formed operation's word at the head of the queue carries the operation out. -/
theorem step_withPending_encode {i : Instr} (h : i.wf = true) (s : State) (later : List (List Byte)) :
    step (s.withPending (encode i :: later)) = answerWithPending later (exec i s) := by
  simp [step, decodeRequest_encode h, exec_withPending]

/-- Settles O43, by induction on the list of operations: a step carries out the first of them, and the rest of the queue is
still pending after it. -/
theorem queuedRequestsRunInOrder : Obligations.QueuedRequestsRunInOrder := by
  intro is
  induction is with
  | nil => exact fun s _ => runSteps_zero _
  | cons i is ih =>
    intro s hwf
    obtain ⟨hi, his⟩ := List.forall_mem_cons.mp hwf
    rw [List.length_cons, List.map_cons, runSteps_succ, step_withPending_encode hi, runInstrs, exec_withPending]
    cases exec i s with
    | next t => exact ih t his
    | fault f => rfl
    | refused r => rfl

end Sys2Proof.Machine

/-! PROOFS. The instances: what an operation and a step can make of them, that no step takes anything of them back, and that
their invariant holds of new ones and is kept by every step. -/

namespace Sys2Proof

open Sys2Proof.Machine

/-- Which sources give a terminal answer (20_memory.md R21). -/
theorem Source.ends_iff {src : Source} : src.ends = true ↔ src.term = .endOfStream ∨ src.term = .err := by
  cases h : src.term <;> simp [ends, h]

/-- A source that gives a terminal answer delivers only its listed bytes. -/
theorem Source.lt_length_of_byteAt {src : Source} {i : Nat} {x : Byte} (h : src.byteAt i = some x) (he : src.ends = true) :
    i < src.bytes.length := by
  by_contra hl
  have hnone : src.byteAt i = none := byteAt_eq_none.mpr ⟨by omega, ends_iff.mp he⟩
  simp [hnone] at h

/-- A source has a byte at every position it has passed. -/
theorem Source.byteAt_of_lt_pos {src : Source} {i : Nat} (h : src.ends = true → src.pos ≤ src.bytes.length)
    (hi : i < src.pos) : ∃ x, src.byteAt i = some x := by
  apply Option.ne_none_iff_exists'.mp
  intro hnone
  obtain ⟨hl, hterm⟩ := byteAt_eq_none.mp hnone
  have := h (ends_iff.mpr hterm)
  omega

/-- Two more bytes delivered. -/
theorem Source.delivered_add_two {src : Source} {x y : Byte} (hx : src.byteAt src.pos = some x)
    (hy : src.byteAt (src.pos + 1) = some y) :
    ({ src with pos := src.pos + 2 } : Source).delivered = src.delivered ++ [x, y] := by
  have hsecond : ({ src with pos := src.pos + 2 } : Source).delivered =
      ({ src with pos := src.pos + 1 } : Source).delivered ++ [y] :=
    delivered_succ (src := { src with pos := src.pos + 1 }) hy
  simp [hsecond, delivered_succ hx]

/-- The last byte delivered is the one before the read position. -/
theorem Source.delivered_eq_append {src : Source} {x : Byte} (hpos : 0 < src.pos) (hx : src.byteAt (src.pos - 1) = some x) :
    src.delivered = ({ src with pos := src.pos - 1 } : Source).delivered ++ [x] := by
  rw [← delivered_succ (src := { src with pos := src.pos - 1 }) hx, Nat.sub_add_cancel hpos]

end Sys2Proof

namespace Sys2Proof.Machine

open Host

/-! ## What an operation and a step can make of the instances -/

/-- The encoder that ENC.NEXT leaves, with the pull's result on its record. -/
def Encoder.afterPull (v : CodecVariant) (e : Encoder) : Encoder :=
  { (pullEncoder v e).2 with toInstance := (pullEncoder v e).2.toInstance.record (pullEncoder v e).1 }

/-- The decoder that DEC.NEXT leaves, with the pull's result on its record. -/
def Decoder.afterPull (cfg : Config) (d : Decoder) : Decoder :=
  { toInstance := (pullDecoder cfg d.toInstance).2.record (pullDecoder cfg d.toInstance).1 }

/-- ENC.NEXT makes of an encoder that has not failed another (41_encoder.md R61, 60_exceptions.md R86). -/
structure Encoder.PulledTo (v : CodecVariant) (e e' : Encoder) : Prop where
  not_failed : e.failed = false
  eq : e' = e.afterPull v

/-- DEC.NEXT makes of a decoder that has not failed another (42_decoder.md R75, 60_exceptions.md R86). -/
structure Decoder.PulledTo (cfg : Config) (d d' : Decoder) : Prop where
  not_failed : d.failed = false
  eq : d' = d.afterPull cfg

/-- What can become of the instances of one kind, in the order of their numbers: nothing; a fresh one after all others; or
one under a number in `target` replaced by what a pull makes of it. -/
inductive ListBecomes {α : Type} (fresh : Source → α) (PulledTo : α → α → Prop) (target : Nat → Prop) (l : List α) :
    List α → Prop
  | unchanged : ListBecomes fresh PulledTo target l l
  | constructed (src : Source) : ListBecomes fresh PulledTo target l (l ++ [fresh src])
  | pulled {k : Nat} {a a' : α} (hk : target k) (ha : l[k]? = some a) (hp : PulledTo a a') :
      ListBecomes fresh PulledTo target l (l.set k a')

section ListBecomes

variable {α : Type} {fresh : Source → α} {PulledTo : α → α → Prop} {target : Nat → Prop} {l l' : List α}

/-- An instance keeps its number, and only a pull under that number changes it. -/
theorem ListBecomes.getElem? (h : ListBecomes fresh PulledTo target l l') {k : Nat} {a : α} (ha : l[k]? = some a) :
    l'[k]? = some a ∨ target k ∧ ∃ a', l'[k]? = some a' ∧ PulledTo a a' := by
  have hk : k < l.length := (List.getElem?_eq_some_iff.mp ha).1
  cases h with
  | unchanged => exact .inl ha
  | constructed src => exact .inl (by rw [List.getElem?_append_left hk, ha])
  | @pulled j b b' hj hb hp =>
    by_cases hjk : j = k
    · subst hjk
      obtain rfl : b = a := by simpa [hb] using ha
      exact .inr ⟨hj, b', List.getElem?_set_self hk, hp⟩
    · exact .inl (by rw [List.getElem?_set_ne hjk, ha])

/-- An instance that no pull may target stays as it is. -/
theorem ListBecomes.getElem?_of_not_target (h : ListBecomes fresh PulledTo target l l') {k : Nat}
    (ht : ¬ target k) (hk : k < l.length) : l'[k]? = l[k]? := by
  have ha : l[k]? = some l[k] := List.getElem?_eq_getElem hk
  obtain hsame | ⟨htarget, -⟩ := h.getElem? ha
  · rw [hsame, ha]
  · exact absurd htarget ht

/-- What holds of all instances still holds of all if it holds of fresh ones and every pull keeps it. -/
theorem ListBecomes.forall_mem {P : α → Prop} (h : ListBecomes fresh PulledTo target l l')
    (hfresh : ∀ src, P (fresh src)) (hpull : ∀ a a', PulledTo a a' → P a → P a') (hl : ∀ a ∈ l, P a) : ∀ a ∈ l', P a := by
  intro b hb
  cases h with
  | unchanged => exact hl b hb
  | constructed src =>
    obtain hmem | rfl : b ∈ l ∨ b = fresh src := by simpa using hb
    · exact hl b hmem
    · exact hfresh src
  | pulled hk ha hp =>
    obtain hmem | rfl := List.mem_or_eq_of_mem_set hb
    · exact hl b hmem
    · exact hpull _ _ hp (hl _ (List.mem_of_getElem? ha))

end ListBecomes

/-- What one operation or one step can make of the machine's instances, with the pulls it may make. -/
structure State.InstancesBecome (s t : State) (encPull decPull : Nat → Prop) : Prop where
  cfg : t.cfg = s.cfg
  encoders : ListBecomes Encoder.fresh (Encoder.PulledTo s.cfg.variant) encPull s.encoders t.encoders
  decoders : ListBecomes Decoder.fresh (Decoder.PulledTo s.cfg) decPull s.decoders t.decoders

/-- What an operation can make of the instances: only a pull changes one, and only its own. -/
theorem exec_instancesBecome {i : Instr} {s t : State} (h : exec i s = .next t) :
    s.InstancesBecome t (fun k => i = .encNext k) (fun k => i = .decNext k) := by
  cases i with
  | encNext k =>
    obtain ⟨e, he, hf, rfl⟩ := execEncNext_next h
    exact ⟨rfl, .pulled rfl he ⟨hf, rfl⟩, .unchanged⟩
  | decNext k =>
    obtain ⟨d, hd, hf, rfl⟩ := execDecNext_next h
    exact ⟨rfl, .unchanged, .pulled rfl hd ⟨hf, rfl⟩⟩
  | encNew src =>
    obtain rfl := Outcome.next.inj h
    exact ⟨rfl, .constructed src, .unchanged⟩
  | decNew src =>
    obtain rfl := Outcome.next.inj h
    exact ⟨rfl, .unchanged, .constructed src⟩
  | getParity | encodeNibble | extractData | extractParity | correct | decode1 =>
    obtain rfl := Outcome.next.inj h
    exact ⟨rfl, .unchanged, .unchanged⟩

/-- A step that gives a next state is idle or carries an operation out. -/
theorem step_next {s t : State} (h : step s = .next t) : t = s ∨ ∃ i later, exec i (s.withPending later) = .next t := by
  unfold step at h
  split at h
  · exact .inl (Outcome.next.inj h).symm
  · split at h
    · exact .inr ⟨_, _, h⟩
    · cases h

/-- What a step can make of the instances. -/
theorem step_instancesBecome {s t : State} (h : step s = .next t) :
    ∃ encPull decPull, s.InstancesBecome t encPull decPull := by
  obtain rfl | ⟨i, later, hexec⟩ := step_next h
  · exact ⟨fun _ => False, fun _ => False, rfl, .unchanged, .unchanged⟩
  · obtain ⟨hcfg, henc, hdec⟩ := exec_instancesBecome hexec
    exact ⟨_, _, hcfg, henc, hdec⟩

/-! ## The invariant of the instances -/

/-- What a pull leaves of the streams and the mark of an instance: its source at a read position, and one more result. -/
def Instance.pulled (i : Instance) (p : Nat) (failed : Bool) (r : PullResult) : Instance :=
  { source := { i.source with pos := p }, failed := failed, results := i.results ++ [r] }

section Instance

variable {i : Instance} {p : Nat}

/-- The streams of an instance just constructed are sound. -/
theorem Instance.fresh_sound (src : Source) : (Instance.fresh src).Sound := by
  constructor <;> simp

/-- No End has been answered while the source still has a byte to deliver (20_memory.md R34). -/
theorem Instance.Sound.not_ended_of_byteAt (h : i.Sound) {x : Byte} (hx : i.source.byteAt i.source.pos = some x) :
    .endOfStream ∉ i.results := by
  intro hmem
  obtain ⟨hpos, hterm, -⟩ := h.ended_at_end hmem
  have := Source.lt_length_of_byteAt hx (Source.ends_iff.mpr (.inl hterm))
  omega

/-- No End has been answered of a source that ends in Err. -/
theorem Instance.Sound.not_ended_of_err (h : i.Sound) (ht : i.source.term = .err) : .endOfStream ∉ i.results := by
  intro hmem
  obtain ⟨-, hterm, -⟩ := h.ended_at_end hmem
  simp [ht] at hterm

/-- An instance stands at the end of its source once it is past all listed bytes. -/
theorem Instance.Sound.pos_eq (h : i.Sound) (hl : i.source.bytes.length ≤ i.source.pos) (he : i.source.ends = true) :
    i.source.pos = i.source.bytes.length := le_antisymm (h.pos_le he) hl

/-- A pull that yields a byte keeps the streams sound. -/
theorem Instance.Sound.pulled_out (h : i.Sound) (hf : i.failed = false)
    (hp : i.source.ends = true → p ≤ i.source.bytes.length) (hlive : .endOfStream ∈ i.results → p = i.source.pos) (v : Byte) :
    (i.pulled p i.failed (.out v)).Sound where
  pos_le := hp
  failed_iff := by simpa [Instance.pulled] using h.failed_iff
  failed_at_end := by simp [Instance.pulled, hf]
  ended_at_end hmem := by
    have hold : .endOfStream ∈ i.results := by simpa [Instance.pulled] using hmem
    simpa [Instance.pulled, hlive hold] using h.ended_at_end hold

/-- A pull that answers End at the end of the source keeps the streams sound. -/
theorem Instance.Sound.pulled_end (h : i.Sound) (hf : i.failed = false) (hp : p = i.source.bytes.length)
    (ht : i.source.term = .endOfStream) : (i.pulled p i.failed .endOfStream).Sound where
  pos_le _ := hp.le
  failed_iff := by simpa [Instance.pulled] using h.failed_iff
  failed_at_end := by simp [Instance.pulled, hf]
  ended_at_end _ := ⟨hp, ht, hf⟩

/-- A pull that raises at the end of the source, with no End before it, keeps the streams sound. -/
theorem Instance.Sound.pulled_raised (hp : p = i.source.bytes.length) (he : i.source.ends = true)
    (hlive : .endOfStream ∉ i.results) (why : Fault) : (i.pulled p true (.raised why)).Sound where
  pos_le _ := hp.le
  failed_iff := by simp [Instance.pulled]
  failed_at_end _ := ⟨he, hp⟩
  ended_at_end hmem := absurd hmem (by simpa [Instance.pulled] using hlive)

end Instance

/-- An encoder just constructed is sound. -/
theorem Encoder.fresh_sound (v : CodecVariant) (src : Source) : (Encoder.fresh src).Sound v where
  toSound := Instance.fresh_sound src
  yielded := by simp
  failed_empty := by simp
  ended_empty := by simp
  no_malformed := by simp

/-- A decoder just constructed is sound. -/
theorem Decoder.fresh_sound (v : CodecVariant) (src : Source) : (Decoder.fresh src).Sound v where
  toSound := Instance.fresh_sound src
  yielded := by simp [decodedStream]
  paired := by simp

/-- A pull of a sound encoder leaves it sound: the buffered codeword is yielded, a byte read is yielded in part and buffered
in part, or the end of the source is reported with nothing buffered. -/
theorem Encoder.PulledTo.sound {v : CodecVariant} {e e' : Encoder} (hp : e.PulledTo v e') (h : e.Sound v) : e'.Sound v := by
  obtain ⟨hf, rfl⟩ := hp
  have hstreams := h.toSound
  have hyielded := h.yielded
  rcases pullEncoder_cases v e with ⟨c, hb, hp⟩ | ⟨x, hb, hx, hp⟩ | ⟨hb, hl, ht, hp⟩ | ⟨hb, hl, ht, hp⟩ <;>
    rw [Encoder.afterPull, hp]
  · have hlive : .endOfStream ∉ e.results := fun hmem => by simpa [hb] using h.ended_empty hmem
    exact {
      toSound := hstreams.pulled_out hf hstreams.pos_le (fun _ => rfl) c
      yielded := by simpa [hb] using hyielded
      failed_empty := by simp [hf]
      ended_empty := by simp
      no_malformed := by simpa using h.no_malformed }
  · have hlive := hstreams.not_ended_of_byteAt hx
    exact {
      toSound := hstreams.pulled_out hf (Source.lt_length_of_byteAt hx) (absurd · hlive) _
      yielded := by simpa [hb, Source.delivered_succ hx, encodedStream_append] using hyielded
      failed_empty := by simp [hf]
      ended_empty := by simpa using hlive
      no_malformed := by simpa using h.no_malformed }
  · exact {
      toSound := hstreams.pulled_end hf (hstreams.pos_eq hl (Source.ends_iff.mpr (.inl ht))) ht
      yielded := by simpa using hyielded
      failed_empty := by simp [hf]
      ended_empty := by simp [hb]
      no_malformed := by simpa using h.no_malformed }
  · have he := Source.ends_iff.mpr (.inr ht)
    exact {
      toSound := Instance.Sound.pulled_raised (hstreams.pos_eq hl he) he (hstreams.not_ended_of_err ht) _
      yielded := by simpa using hyielded
      failed_empty := by simp [hb, ht]
      ended_empty := by simp [hb]
      no_malformed := by simpa using h.no_malformed }

/-- A decoder that still has a byte to read stands before a pair (20_memory.md R25). -/
theorem Decoder.Sound.pos_even_of_byteAt {v : CodecVariant} {d : Decoder} (h : d.Sound v) {x : Byte}
    (hx : d.source.byteAt d.source.pos = some x) : d.source.pos % 2 = 0 := by
  by_contra hodd
  obtain ⟨he, hpos⟩ := h.paired (by omega)
  have := Source.lt_length_of_byteAt hx he
  omega

/-- The bytes delivered to a decoder that still has a byte to read are whole pairs. -/
theorem Decoder.Sound.delivered_even_of_byteAt {v : CodecVariant} {d : Decoder} (h : d.Sound v) {x : Byte}
    (hx : d.source.byteAt d.source.pos = some x) : d.source.delivered.length % 2 = 0 := by
  rw [Source.delivered_length h.pos_le, h.pos_even_of_byteAt hx]

/-- A decoder that has read its source's last byte without a partner is sound, whether that was reported as a failure or
discarded, when its streams are (42_decoder.md R76). -/
theorem Decoder.Sound.pulled_unpaired {v : CodecVariant} {d : Decoder} (h : d.Sound v) {failed : Bool} {r : PullResult}
    (hl : d.source.pos + 1 = d.source.bytes.length) (he : d.source.ends = true) (hr : outputs [r] = [])
    (hstreams : .endOfStream ∉ d.results → (d.pulled (d.source.pos + 1) failed r).Sound) :
    Decoder.Sound v ⟨d.pulled (d.source.pos + 1) failed r⟩ := by
  have hx := Source.byteAt_listed (src := d.source) (i := d.source.pos) (by omega)
  exact {
    toSound := hstreams (h.not_ended_of_byteAt hx)
    yielded := by
      simp [Instance.pulled, hr, h.yielded, Source.delivered_succ hx, decodedStream,
        decodedStream_append v _ _ (h.delivered_even_of_byteAt hx)]
    paired := fun _ => ⟨he, hl⟩ }

/-- A pull of a sound decoder leaves it sound: a pair read is decoded, or the end of the source is reported, before a byte
or after an unpaired one. -/
theorem Decoder.PulledTo.sound {cfg : Config} {d d' : Decoder} (hp : d.PulledTo cfg d') (h : d.Sound cfg.variant) :
    d'.Sound cfg.variant := by
  obtain ⟨hf, rfl⟩ := hp
  have hstreams := h.toSound
  have hyielded := h.yielded
  rcases pullDecoder_cases cfg d.toInstance with ⟨b0, b1, hx0, hx1, hp⟩ | ⟨hl, ht, hp⟩ | ⟨hl, ht, hp⟩ | ⟨hl, ht, hp⟩ |
    ⟨hl, ht, -, hp⟩ | ⟨hl, ht, -, hp⟩ <;> rw [Decoder.afterPull, hp]
  · exact {
      toSound := hstreams.pulled_out hf (Source.lt_length_of_byteAt hx1) (absurd · (hstreams.not_ended_of_byteAt hx0)) _
      yielded := by
        simp [hyielded, Source.delivered_add_two hx0 hx1, decodedStream,
          decodedStream_append _ _ _ (h.delivered_even_of_byteAt hx0)]
      paired := fun hodd => by
        have heven := h.pos_even_of_byteAt hx0
        have hodd : (d.source.pos + 2) % 2 = 1 := hodd
        omega }
  · exact {
      toSound := hstreams.pulled_end hf (hstreams.pos_eq hl (Source.ends_iff.mpr (.inl ht))) ht
      yielded := by simpa using hyielded
      paired := h.paired }
  · have he := Source.ends_iff.mpr (.inr ht)
    exact {
      toSound := Instance.Sound.pulled_raised (hstreams.pos_eq hl he) he (hstreams.not_ended_of_err ht) _
      yielded := by simpa using hyielded
      paired := h.paired }
  · have he := Source.ends_iff.mpr (.inr ht)
    exact h.pulled_unpaired hl he rfl fun hlive => Instance.Sound.pulled_raised hl he hlive _
  · have he := Source.ends_iff.mpr (.inl ht)
    exact h.pulled_unpaired hl he rfl fun hlive => Instance.Sound.pulled_raised hl he hlive _
  · exact h.pulled_unpaired hl (Source.ends_iff.mpr (.inl ht)) rfl fun _ => hstreams.pulled_end hf hl ht

/-- Whatever an operation or a step can make of the instances, the invariant is kept. -/
theorem State.InstancesBecome.inv {s t : State} {encPull decPull : Nat → Prop} (h : s.InstancesBecome t encPull decPull)
    (hs : s.Inv) : t.Inv := by
  constructor
  · rw [h.cfg]
    exact h.encoders.forall_mem (Encoder.fresh_sound _) (fun _ _ hp => hp.sound) hs.encoders
  · rw [h.cfg]
    exact h.decoders.forall_mem (Decoder.fresh_sound _) (fun _ _ hp => hp.sound) hs.decoders

/-- Settles O26: a step constructs sound instances and pulls sound ones, and a pull keeps each kind sound. -/
theorem stepKeepsTheInstancesSound : Obligations.StepKeepsTheInstancesSound := by
  intro s t hs hstep
  obtain ⟨encPull, decPull, h⟩ := step_instancesBecome hstep
  exact h.inv hs

/-- Settles O27: construction gives sound instances, at reset and by the two operations. -/
theorem freshInstancesAreSound : Obligations.FreshInstancesAreSound := by
  refine ⟨⟨?_, ?_⟩, fun s src hs => ⟨⟨_, rfl, ?_⟩, ⟨_, rfl, ?_⟩⟩⟩
  · exact List.forall_mem_singleton.mpr (Encoder.fresh_sound _ resetSource)
  · exact List.forall_mem_singleton.mpr (Decoder.fresh_sound _ resetSource)
  · exact (exec_instancesBecome (i := .encNew src) rfl).inv hs
  · exact (exec_instancesBecome (i := .decNew src) rfl).inv hs

/-- Settles O28: construction puts a fresh instance after all others. -/
theorem resetIsConstruction : Obligations.ResetIsConstruction := by
  refine ⟨?_, ?_, fun s t src h => ?_, fun s t src h => ?_⟩
  · exact List.forall_mem_singleton.mpr ⟨rfl, rfl, rfl⟩
  · exact List.forall_mem_singleton.mpr ⟨rfl, rfl⟩
  · obtain rfl := Outcome.next.inj h
    exact ⟨.fresh src, List.getLast?_concat, rfl, rfl, rfl⟩
  · obtain rfl := Outcome.next.inj h
    exact ⟨.fresh src, List.getLast?_concat, rfl, rfl⟩

/-- Settles O29: the buffered codeword ends the encoding of the bytes read, so it is the second codeword of the last of
them. -/
theorem bufferHoldsTheLowerNibblesCodeword : Obligations.BufferHoldsTheLowerNibblesCodeword := by
  intro s e c hs he hbuf
  have hsound := hs.encoders e he
  have hyielded : outputs e.results ++ [c] = encodedStream s.cfg.variant e.source.delivered := by
    simpa [hbuf] using hsound.yielded
  have hpos : 0 < e.source.pos := by
    rw [← Source.delivered_length hsound.pos_le, List.length_pos_iff]
    intro hnil
    simp [hnil] at hyielded
  obtain ⟨x, hx⟩ := Source.byteAt_of_lt_pos hsound.pos_le (Nat.sub_one_lt_of_lt hpos)
  refine ⟨x, hpos, hx, ?_⟩
  rw [Source.delivered_eq_append hpos hx, encodedStream_append] at hyielded
  simpa using congrArg List.getLast? hyielded

/-! ## Instances only move forward -/

/-- An instance is continued by another: the same source content, a read position no smaller, and a record that extends the
old one (20_memory.md R21, R23). -/
def Instance.ContinuedBy (i i' : Instance) : Prop :=
  i'.source.bytes = i.source.bytes ∧ i'.source.term = i.source.term ∧ i.source.pos ≤ i'.source.pos ∧
    i.results <+: i'.results

theorem Instance.continuedBy_pulled (i : Instance) {p : Nat} (hp : i.source.pos ≤ p) (failed : Bool) (r : PullResult) :
    i.ContinuedBy (i.pulled p failed r) := ⟨rfl, rfl, hp, List.prefix_append _ _⟩

/-- A pull of an encoder goes at most forward in its source and adds to its record. -/
theorem Encoder.PulledTo.continuedBy {v : CodecVariant} {e e' : Encoder} (h : e.PulledTo v e') :
    e.ContinuedBy e'.toInstance := by
  obtain ⟨-, rfl⟩ := h
  rcases pullEncoder_cases v e with ⟨c, -, hp⟩ | ⟨x, -, -, hp⟩ | ⟨-, -, -, hp⟩ | ⟨-, -, -, hp⟩ <;>
    rw [Encoder.afterPull, hp]
  · exact e.continuedBy_pulled le_rfl _ _
  · exact e.continuedBy_pulled (Nat.le_add_right _ 1) _ _
  · exact e.continuedBy_pulled le_rfl _ _
  · exact e.continuedBy_pulled le_rfl _ _

/-- A pull of a decoder goes at most forward in its source and adds to its record. -/
theorem Decoder.PulledTo.continuedBy {cfg : Config} {d d' : Decoder} (h : d.PulledTo cfg d') :
    d.ContinuedBy d'.toInstance := by
  obtain ⟨-, rfl⟩ := h
  rcases pullDecoder_cases cfg d.toInstance with ⟨b0, b1, -, -, hp⟩ | ⟨-, -, hp⟩ | ⟨-, -, hp⟩ | ⟨-, -, hp⟩ |
    ⟨-, -, -, hp⟩ | ⟨-, -, -, hp⟩ <;> rw [Decoder.afterPull, hp]
  · exact d.continuedBy_pulled (Nat.le_add_right _ 2) _ _
  · exact d.continuedBy_pulled le_rfl _ _
  · exact d.continuedBy_pulled le_rfl _ _
  · exact d.continuedBy_pulled (Nat.le_add_right _ 1) _ _
  · exact d.continuedBy_pulled (Nat.le_add_right _ 1) _ _
  · exact d.continuedBy_pulled (Nat.le_add_right _ 1) _ _

/-- Settles O25: an instance is as before the step or what a pull has made of it, and only one that has not failed is
pulled. -/
theorem stepsOnlyMoveInstancesForward : Obligations.StepsOnlyMoveInstancesForward := by
  intro s t hstep
  obtain ⟨encPull, decPull, hcfg, henc, hdec⟩ := step_instancesBecome hstep
  refine ⟨hcfg, fun k e he => ?_, fun k d hd => ?_⟩
  · obtain hsame | ⟨-, e', he', hp⟩ := henc.getElem? he
    · exact ⟨e, hsame, rfl, rfl, le_rfl, List.prefix_rfl, fun _ => rfl⟩
    · obtain ⟨hbytes, hterm, hpos, hres⟩ := hp.continuedBy
      exact ⟨e', he', hbytes, hterm, hpos, hres, fun hf => by simp [hp.not_failed] at hf⟩
  · obtain hsame | ⟨-, d', hd', hp⟩ := hdec.getElem? hd
    · exact ⟨d, hsame, rfl, rfl, le_rfl, List.prefix_rfl, fun _ => rfl⟩
    · obtain ⟨hbytes, hterm, hpos, hres⟩ := hp.continuedBy
      exact ⟨d', hd', hbytes, hterm, hpos, hres, fun hf => by simp [hp.not_failed] at hf⟩

/-! ## Instances are independent -/

/-- ENC.NEXT of an encoder that has not failed completes; the answer and the encoder after it come from the pull. -/
theorem exec_encNext_pulled {s : State} {k : Nat} {e : Encoder} (h : s.encoders[k]? = some e) (hf : e.failed = false) :
    ∃ t, exec (.encNext k) s = .next t ∧ t.answer = some (.pull (pullEncoder s.cfg.variant e).1) ∧
      t.encoders[k]? = some (e.afterPull s.cfg.variant) :=
  ⟨_, execEncNext_admitted h hf, rfl, List.getElem?_set_self (List.getElem?_eq_some_iff.mp h).1⟩

/-- DEC.NEXT of a decoder that has not failed completes; the answer and the decoder after it come from the pull. -/
theorem exec_decNext_pulled {s : State} {k : Nat} {d : Decoder} (h : s.decoders[k]? = some d) (hf : d.failed = false) :
    ∃ t, exec (.decNext k) s = .next t ∧ t.answer = some (.pull (pullDecoder s.cfg d.toInstance).1) ∧
      t.decoders[k]? = some (d.afterPull s.cfg) :=
  ⟨_, execDecNext_admitted h hf, rfl, List.getElem?_set_self (List.getElem?_eq_some_iff.mp h).1⟩

/-- Settles O24: a pull is a function of the parameters and the instance, and no other operation changes the instance. -/
theorem instancesAreIndependent : Obligations.InstancesAreIndependent := by
  refine ⟨fun s s' k k' e hcfg he he' hf => ?_, fun s s' k k' d hcfg hd hd' hf => ?_, fun s t i k h => ?_⟩
  · obtain ⟨t, ht, hans, hget⟩ := exec_encNext_pulled he hf
    obtain ⟨t', ht', hans', hget'⟩ := exec_encNext_pulled he' hf
    exact ⟨t, t', ht, ht', by rw [hans, hans', hcfg], by rw [hget, hget', hcfg]⟩
  · obtain ⟨t, ht, hans, hget⟩ := exec_decNext_pulled hd hf
    obtain ⟨t', ht', hans', hget'⟩ := exec_decNext_pulled hd' hf
    exact ⟨t, t', ht, ht', by rw [hans, hans', hcfg], by rw [hget, hget', hcfg]⟩
  · obtain ⟨-, henc, hdec⟩ := exec_instancesBecome h
    exact ⟨henc.getElem?_of_not_target, hdec.getElem?_of_not_target⟩

end Sys2Proof.Machine

/-! PROOFS. The two streams of an instance: what a source delivers, the elements of the whole streams, and runs of pulls of
one instance, with the bytes they yield (20_memory.md). -/

namespace Sys2Proof

open Sys2Proof.Machine

/-- Which byte was delivered at a position the source has passed. -/
theorem Source.delivered_getElem? {src : Source} (h : src.ends = true → src.pos ≤ src.bytes.length) {j : Nat}
    (hj : j < src.pos) : src.delivered[j]? = src.byteAt j := by
  obtain ⟨bytes, term, pos⟩ := src
  induction pos with
  | zero => exact absurd hj (Nat.not_lt_zero j)
  | succ p ih =>
    have hp : Source.ends ⟨bytes, term, p⟩ = true → p ≤ bytes.length := fun he => Nat.le_of_succ_le (h he)
    have hlen : (⟨bytes, term, p⟩ : Source).delivered.length = p := delivered_length hp
    obtain ⟨x, hx⟩ := byteAt_of_lt_pos h (Nat.lt_succ_self p)
    have hsucc : (⟨bytes, term, p + 1⟩ : Source).delivered = (⟨bytes, term, p⟩ : Source).delivered ++ [x] :=
      delivered_succ (src := ⟨bytes, term, p⟩) hx
    rw [hsucc]
    obtain hlt | rfl := Nat.lt_succ_iff_lt_or_eq.mp hj
    · rw [List.getElem?_append_left (hlen.symm ▸ hlt)]
      exact ih hp hlt
    · rw [hx, List.getElem?_append_right hlen.le, hlen, Nat.sub_self]
      rfl

/-- The unread listed bytes begin with the byte at the read position. -/
theorem Source.byteAt_pos_of_drop {src : Source} {x : Byte} {xs : List Byte} (h : src.bytes.drop src.pos = x :: xs) :
    src.byteAt src.pos = some x := by
  have hx : src.bytes[src.pos]? = some x := by rw [← List.head?_drop, h]; rfl
  simp [byteAt, hx]

/-- Settles O45: the laws of `byteAt` and `srcRead`, and the bytes delivered by their positions. -/
theorem sourceDeliversItsBytesInOrder : Obligations.SourceDeliversItsBytesInOrder := by
  intro src i
  refine ⟨fun x hx => ?_, fun hl => ?_, fun x hx => srcRead_byte hx, fun hn ht => ?_, fun hn ht => ?_, fun h => ?_⟩
  · simp [Source.byteAt, hx]
  · simp [Source.byteAt_eq_none, Source.ends_iff, hl]
  · exact srcRead_end (Source.byteAt_eq_none.mp hn).1 ht
  · exact srcRead_err (Source.byteAt_eq_none.mp hn).1 ht
  · exact ⟨Source.delivered_length h, fun j hj => Source.delivered_getElem? h hj⟩

end Sys2Proof

namespace Sys2Proof.Machine

open Host

/-! ## The whole streams by position -/

theorem encodedStream_length (v : CodecVariant) (xs : List Byte) : (encodedStream v xs).length = 2 * xs.length := by
  induction xs with
  | nil => rfl
  | cons x xs ih => simp [ih]; omega

/-- The two codewords of byte k are the elements 2k and 2k + 1 of the encoded stream (20_memory.md R28 item 3). -/
theorem encodedStream_getElem? (v : CodecVariant) {xs : List Byte} {k : Nat} {x : Byte} (h : xs[k]? = some x) :
    (encodedStream v xs)[2 * k]? = some (encodeNib v (nibHi x)) ∧
    (encodedStream v xs)[2 * k + 1]? = some (encodeNib v (nibLo x)) := by
  induction xs generalizing k with
  | nil => simp at h
  | cons y ys ih =>
    cases k with
    | zero =>
      obtain rfl : y = x := by simpa using h
      exact ⟨rfl, rfl⟩
    | succ k => exact ih h

/-- Element k of the decoded stream is made of the bytes 2k and 2k + 1 (20_memory.md R28 item 4). -/
theorem decodedStream_getElem? (v : CodecVariant) : ∀ {xs : List Byte} {k : Nat} {b0 b1 : Byte},
    xs[2 * k]? = some b0 → xs[2 * k + 1]? = some b1 →
    (decodedStream v xs)[k]? = some (joinNibbles (decodeByte v b0) (decodeByte v b1))
  | [], _, _, _, h0, _ => by simp at h0
  | [_], _, _, _, _, h1 => by simp at h1
  | x :: y :: _, 0, b0, b1, h0, h1 => by
    obtain rfl : x = b0 := by simpa using h0
    obtain rfl : y = b1 := by simpa using h1
    rfl
  | _ :: _ :: rest, k + 1, _, _, h0, h1 => decodedStream_getElem? v (xs := rest) (k := k) h0 h1

/-- Decoding an encoded stream gives it back (30_encoding.md R46, 42_decoder.md R78). -/
theorem decodedStream_encodedStream (v : CodecVariant) (xs : List Byte) : decodedStream v (encodedStream v xs) = xs := by
  induction xs with
  | nil => rfl
  | cons x xs ih => simp [decodedStream, decodeByte_encodeNib, joinNibbles_split, ih]

/-- Settles O41: the elements of the two streams by position. -/
theorem streamElementsByPosition : Obligations.StreamElementsByPosition := fun v _ _ =>
  ⟨fun _ hx => encodedStream_getElem? v hx, fun _ _ h0 h1 => decodedStream_getElem? v h0 h1⟩

/-! ## Runs of pulls of one instance -/

/-- The streams of an instance that has read n more bytes and yielded the bytes vs. -/
def Instance.yielding (i : Instance) (n : Nat) (vs : List Byte) : Instance :=
  { i with source := { i.source with pos := i.source.pos + n }, results := i.results ++ vs.map .out }

@[simp] theorem Instance.yielding_source (i : Instance) (n : Nat) (vs : List Byte) :
    (i.yielding n vs).source = { i.source with pos := i.source.pos + n } := rfl
@[simp] theorem Instance.yielding_failed (i : Instance) (n : Nat) (vs : List Byte) :
    (i.yielding n vs).failed = i.failed := rfl
@[simp] theorem Instance.yielding_results (i : Instance) (n : Nat) (vs : List Byte) :
    (i.yielding n vs).results = i.results ++ vs.map .out := rfl

@[simp] theorem Instance.yielding_nothing (i : Instance) : i.yielding 0 [] = i := by simp [Instance.yielding]

@[simp] theorem Instance.yielding_yielding (i : Instance) (m n : Nat) (us vs : List Byte) :
    (i.yielding m us).yielding n vs = i.yielding (m + n) (us ++ vs) := by simp [Instance.yielding, Nat.add_assoc]

/-- Pulls of one instance, one after another: the instance before them, their results, the instance after them.
`Answers a r b` says that a pull of a answers r and leaves b. -/
inductive Pulls {α : Type} (Answers : α → PullResult → α → Prop) : α → List PullResult → α → Prop
  | nil (a : α) : Pulls Answers a [] a
  | cons {a b c : α} {r : PullResult} {rs : List PullResult} (h : Answers a r b) (hs : Pulls Answers b rs c) :
      Pulls Answers a (r :: rs) c

section Pulls

variable {α : Type} {Answers : α → PullResult → α → Prop} {a b c : α} {r : PullResult} {rs rs' : List PullResult}

theorem Pulls.append (h : Pulls Answers a rs b) (hs : Pulls Answers b rs' c) : Pulls Answers a (rs ++ rs') c := by
  induction h with
  | nil a => exact hs
  | cons hr _ ih => exact .cons hr (ih hs)

/-- One more pull after others. -/
theorem Pulls.concat (h : Pulls Answers a rs b) (hr : Answers b r c) : Pulls Answers a (rs ++ [r]) c :=
  h.append (.cons hr (.nil c))

/-- A run of pulls by one operation: `state a ans` is the machine with the instance a and ans as what was answered last. -/
theorem runInstrs_of_pulls {i : Instr} {state : α → Option Answer → State}
    (hexec : ∀ a r b ans, Answers a r b → exec i (state a ans) = .next (state b (some (.pull r))))
    (h : Pulls Answers a rs b) (ans : Option Answer) :
    runInstrs (List.replicate rs.length i) (state a ans) = .next (state b ((rs.getLast?.map .pull).or ans)) := by
  induction h generalizing ans with
  | nil a => rfl
  | @cons a b c r rs hr _ ih =>
    rw [List.length_cons, List.replicate_succ, runInstrs, hexec a r b ans hr]
    simp only [ih, List.getLast?_cons]
    cases rs.getLast? <;> rfl

end Pulls

/-- ENC.NEXT of an encoder that has not failed answers r and leaves e' (41_encoder.md R61). -/
structure Encoder.Answers (v : CodecVariant) (e : Encoder) (r : PullResult) (e' : Encoder) : Prop
    extends e.PulledTo v e' where
  result : (pullEncoder v e).1 = r

/-- DEC.NEXT of a decoder that has not failed answers r and leaves d' (42_decoder.md R75). -/
structure Decoder.Answers (cfg : Config) (d : Decoder) (r : PullResult) (d' : Decoder) : Prop
    extends d.PulledTo cfg d' where
  result : (pullDecoder cfg d.toInstance).1 = r

/-- The machine with e as its encoder k and ans as what was answered last. -/
def State.withEncoder (s : State) (k : Nat) (e : Encoder) (ans : Option Answer) : State :=
  { s with encoders := s.encoders.set k e, answer := ans }

theorem exec_encNext_withEncoder {s : State} {k : Nat} (hk : k < s.encoders.length) {e e' : Encoder} {r : PullResult}
    (h : e.Answers s.cfg.variant r e') (ans : Option Answer) :
    exec (.encNext k) (s.withEncoder k e ans) = .next (s.withEncoder k e' (some (.pull r))) := by
  obtain ⟨⟨hf, rfl⟩, rfl⟩ := h
  have hget : (s.withEncoder k e ans).encoders[k]? = some e := List.getElem?_set_self hk
  exact (execEncNext_admitted hget hf).trans
    (by simp [State.withEncoder, Encoder.afterPull, State.setEncoder, State.withAnswer])

/-- Pulls of encoder k: the machine carries them out, and nothing but that encoder and the answer changes. -/
theorem runInstrs_encNext {s : State} {k : Nat} {e e' : Encoder} {rs : List PullResult} {r : PullResult}
    (he : s.encoders[k]? = some e) (h : Pulls (Encoder.Answers s.cfg.variant) e rs e') (hr : rs.getLast? = some r) :
    runInstrs (List.replicate rs.length (.encNext k)) s =
      .next { s with encoders := s.encoders.set k e', answer := some (.pull r) } := by
  obtain ⟨hk, rfl⟩ := List.getElem?_eq_some_iff.mp he
  have hrun := runInstrs_of_pulls (i := .encNext k) (state := s.withEncoder k)
    (fun _ _ _ ans hans => exec_encNext_withEncoder hk hans ans) h s.answer
  simpa [State.withEncoder, hr] using hrun

/-- The machine with d as its decoder k and ans as what was answered last. -/
def State.withDecoder (s : State) (k : Nat) (d : Decoder) (ans : Option Answer) : State :=
  { s with decoders := s.decoders.set k d, answer := ans }

theorem exec_decNext_withDecoder {s : State} {k : Nat} (hk : k < s.decoders.length) {d d' : Decoder} {r : PullResult}
    (h : d.Answers s.cfg r d') (ans : Option Answer) :
    exec (.decNext k) (s.withDecoder k d ans) = .next (s.withDecoder k d' (some (.pull r))) := by
  obtain ⟨⟨hf, rfl⟩, rfl⟩ := h
  have hget : (s.withDecoder k d ans).decoders[k]? = some d := List.getElem?_set_self hk
  exact (execDecNext_admitted hget hf).trans
    (by simp [State.withDecoder, Decoder.afterPull, State.setDecoder, State.withAnswer])

/-- Pulls of decoder k: the machine carries them out, and nothing but that decoder and the answer changes. -/
theorem runInstrs_decNext {s : State} {k : Nat} {d d' : Decoder} {rs : List PullResult} {r : PullResult}
    (hd : s.decoders[k]? = some d) (h : Pulls (Decoder.Answers s.cfg) d rs d') (hr : rs.getLast? = some r) :
    runInstrs (List.replicate rs.length (.decNext k)) s =
      .next { s with decoders := s.decoders.set k d', answer := some (.pull r) } := by
  obtain ⟨hk, rfl⟩ := List.getElem?_eq_some_iff.mp hd
  have hrun := runInstrs_of_pulls (i := .decNext k) (state := s.withDecoder k)
    (fun _ _ _ ans hans => exec_decNext_withDecoder hk hans ans) h s.answer
  simpa [State.withDecoder, hr] using hrun

/-! ## Pulls of an encoder -/

section Encoder

variable {v : CodecVariant} {e : Encoder}

/-- The pull's body says what ENC.NEXT answers and leaves. -/
theorem Encoder.answers_of_pullEncoder {e' : Encoder} {r : PullResult} (hf : e.failed = false)
    (h : pullEncoder v e = (r, e')) : e.Answers v r { e' with toInstance := e'.toInstance.record r } :=
  ⟨⟨hf, by rw [Encoder.afterPull, h]⟩, by rw [h]⟩

/-- A pull of an encoder with a full buffer yields the buffered codeword and reads nothing. -/
theorem Encoder.answers_full (hf : e.failed = false) {c : Byte} (hb : e.encBuf = some c) :
    e.Answers v (.out c) ⟨e.yielding 0 [c], none⟩ := answers_of_pullEncoder hf (pullEncoder_full hb)

/-- A pull of an encoder with an empty buffer reads a byte, yields its upper nibble's codeword and buffers the other. -/
theorem Encoder.answers_byte (hf : e.failed = false) (hb : e.encBuf = none) {x : Byte}
    (hx : e.source.byteAt e.source.pos = some x) :
    e.Answers v (.out (encodeNib v (nibHi x))) ⟨e.yielding 1 [encodeNib v (nibHi x)], some (encodeNib v (nibLo x))⟩ :=
  answers_of_pullEncoder hf (pullEncoder_byte hb hx)

/-- Two pulls of an encoder with an empty buffer read a byte and yield its two codewords (41_encoder.md R62). -/
theorem Encoder.pulls_byte (hf : e.failed = false) (hb : e.encBuf = none) {x : Byte}
    (hx : e.source.byteAt e.source.pos = some x) :
    Pulls (Encoder.Answers v) e ((encodedPair v x).map .out) ⟨e.yielding 1 (encodedPair v x), none⟩ := by
  have hlo := answers_full (v := v) (e := ⟨e.yielding 1 [encodeNib v (nibHi x)], some (encodeNib v (nibLo x))⟩) hf rfl
  rw [Instance.yielding_yielding] at hlo
  exact .cons (answers_byte hf hb hx) (.cons hlo (.nil _))

/-- The pulls of an encoder with an empty buffer yield the codewords of the listed bytes it has not read. -/
theorem Encoder.pulls_listed (hf : e.failed = false) (hb : e.encBuf = none) {xs : List Byte}
    (hxs : e.source.bytes.drop e.source.pos = xs) :
    Pulls (Encoder.Answers v) e ((encodedStream v xs).map .out) ⟨e.yielding xs.length (encodedStream v xs), none⟩ := by
  induction xs generalizing e with
  | nil =>
    obtain ⟨i, b⟩ := e
    obtain rfl : b = none := hb
    simpa using Pulls.nil _
  | cons x xs ih =>
    have hrest : e.source.bytes.drop (e.source.pos + 1) = xs := by rw [← List.drop_drop, hxs]; rfl
    have hpair := e.pulls_byte (v := v) hf hb (Source.byteAt_pos_of_drop hxs)
    have hpulls := hpair.append (ih (e := ⟨e.yielding 1 (encodedPair v x), none⟩) hf rfl hrest)
    rw [← List.map_append, Instance.yielding_yielding, Nat.add_comm] at hpulls
    exact hpulls

/-- A source without a terminal answer makes every pull of an encoder yield a byte; two pulls read one byte, and the buffer
holds what is read and not yet yielded (20_memory.md R21). -/
theorem Encoder.pulls_endless {n : Nat} (hf : e.failed = false) (ht : e.source.term = .never n) (m : Nat) :
    ∃ (vs : List Byte) (reads : Nat) (buf : Option Byte), vs.length = m ∧
      2 * reads + e.encBuf.isSome.toNat = m + buf.isSome.toNat ∧
      Pulls (Encoder.Answers v) e (vs.map .out) ⟨e.yielding reads vs, buf⟩ := by
  induction m generalizing e with
  | zero => exact ⟨[], 0, e.encBuf, rfl, rfl, by simpa using Pulls.nil e⟩
  | succ m ih =>
    cases hb : e.encBuf with
    | some c =>
      obtain ⟨vs, reads, buf, hlen, hcount, hpulls⟩ := ih (e := ⟨e.yielding 0 [c], none⟩) hf ht
      refine ⟨c :: vs, reads, buf, by simp [hlen], ?_, .cons (answers_full hf hb) (by simpa using hpulls)⟩
      simp only [Option.isSome_some, Option.isSome_none, Bool.toNat_true, Bool.toNat_false] at hcount ⊢
      omega
    | none =>
      obtain ⟨x, hx⟩ := Source.byteAt_of_never ht e.source.pos
      obtain ⟨vs, reads, buf, hlen, hcount, hpulls⟩ :=
        ih (e := ⟨e.yielding 1 [encodeNib v (nibHi x)], some (encodeNib v (nibLo x))⟩) hf ht
      refine ⟨encodeNib v (nibHi x) :: vs, 1 + reads, buf, by simp [hlen], ?_,
        .cons (answers_byte hf hb hx) (by simpa using hpulls)⟩
      simp only [Option.isSome_some, Option.isSome_none, Bool.toNat_true, Bool.toNat_false] at hcount ⊢
      omega

/-- The pulls of an encoder around a source that ends in End: the whole encoded stream, then End (41_encoder.md R65). -/
theorem Encoder.fresh_pulls_to_end (v : CodecVariant) (xs : List Byte) (p : Nat) :
    ∃ e, Pulls (Encoder.Answers v) (.fresh ⟨xs, .endOfStream, p⟩) ((encodedStream v xs).map .out ++ [.endOfStream]) e ∧
      e.runStatus = .complete ∧ outputs e.results = encodedStream v xs := by
  have hpulls := Encoder.pulls_listed (v := v) (e := .fresh ⟨xs, .endOfStream, p⟩) rfl rfl rfl
  refine ⟨_, hpulls.concat (answers_of_pullEncoder rfl (pullEncoder_end rfl (by simp) rfl)), ?_, ?_⟩
  · simp [Instance.runStatus]
  · simp

end Encoder

/-! ## Pulls of a decoder -/

section Decoder

variable {cfg : Config} {d : Decoder}

/-- The pull's body says what DEC.NEXT answers and leaves. -/
theorem Decoder.answers_of_pullDecoder {i : Instance} {r : PullResult} (hf : d.failed = false)
    (h : pullDecoder cfg d.toInstance = (r, i)) : d.Answers cfg r ⟨i.record r⟩ :=
  ⟨⟨hf, by rw [Decoder.afterPull, h]⟩, by rw [h]⟩

/-- A pull of a decoder before a pair reads it and yields its byte. -/
theorem Decoder.answers_pair (hf : d.failed = false) {b0 b1 : Byte} (h0 : d.source.byteAt d.source.pos = some b0)
    (h1 : d.source.byteAt (d.source.pos + 1) = some b1) :
    d.Answers cfg (.out (joinNibbles (decodeByte cfg.variant b0) (decodeByte cfg.variant b1)))
      ⟨d.yielding 2 [joinNibbles (decodeByte cfg.variant b0) (decodeByte cfg.variant b1)]⟩ :=
  answers_of_pullDecoder hf (pullDecoder_pair h0 h1)

/-- The pulls of a decoder yield the bytes decoded from the pairs of listed bytes it has not read. -/
theorem Decoder.pulls_listed : ∀ {xs : List Byte} {d : Decoder}, d.failed = false →
    d.source.bytes.drop d.source.pos = xs →
    Pulls (Decoder.Answers cfg) d ((decodedStream cfg.variant xs).map .out)
      ⟨d.yielding (2 * (xs.length / 2)) (decodedStream cfg.variant xs)⟩
  | [], d, _, _ => by simpa [decodedStream] using Pulls.nil d
  | [_], d, _, _ => by simpa [decodedStream] using Pulls.nil d
  | b0 :: b1 :: xs, d, hf, hxs => by
    have hsecond : d.source.bytes.drop (d.source.pos + 1) = b1 :: xs := by rw [← List.drop_drop, hxs]; rfl
    have hrest : d.source.bytes.drop (d.source.pos + 2) = xs := by rw [← List.drop_drop, hxs]; rfl
    have h1 : d.source.byteAt (d.source.pos + 1) = some b1 :=
      Source.byteAt_pos_of_drop (src := { d.source with pos := d.source.pos + 1 }) hsecond
    have hpulls := Decoder.pulls_listed
      (d := ⟨d.yielding 2 [joinNibbles (decodeByte cfg.variant b0) (decodeByte cfg.variant b1)]⟩) hf hrest
    have hreads : 2 + 2 * (xs.length / 2) = 2 * ((b0 :: b1 :: xs).length / 2) := by simp; omega
    refine .cons (answers_pair hf (Source.byteAt_pos_of_drop hxs) h1) ?_
    simpa only [decodedStream, Instance.yielding_yielding, hreads, List.singleton_append] using hpulls

/-- A source without a terminal answer makes every pull of a decoder read two bytes and yield one (20_memory.md R21). -/
theorem Decoder.pulls_endless {n : Nat} (hf : d.failed = false) (ht : d.source.term = .never n) (m : Nat) :
    ∃ vs : List Byte, vs.length = m ∧ Pulls (Decoder.Answers cfg) d (vs.map .out) ⟨d.yielding (2 * m) vs⟩ := by
  induction m generalizing d with
  | zero => exact ⟨[], rfl, by simpa using Pulls.nil d⟩
  | succ m ih =>
    obtain ⟨b0, h0⟩ := Source.byteAt_of_never ht d.source.pos
    obtain ⟨b1, h1⟩ := Source.byteAt_of_never ht (d.source.pos + 1)
    have hfirst := answers_pair (cfg := cfg) hf h0 h1
    obtain ⟨vs, hlen, hpulls⟩ := ih (d := ⟨d.yielding 2 [_]⟩) hf ht
    refine ⟨_ :: vs, by simp [hlen], .cons hfirst ?_⟩
    simpa [Nat.mul_succ, Nat.add_comm] using hpulls

/-- The pulls of a decoder around whole pairs that end in End: the whole decoded stream, then End (42_decoder.md R82). -/
theorem Decoder.fresh_pulls_to_end (cfg : Config) {xs : List Byte} (heven : xs.length % 2 = 0) (p : Nat) :
    ∃ d, Pulls (Decoder.Answers cfg) (.fresh ⟨xs, .endOfStream, p⟩)
        ((decodedStream cfg.variant xs).map .out ++ [.endOfStream]) d ∧
      d.runStatus = .complete ∧ outputs d.results = decodedStream cfg.variant xs := by
  have hpulls := Decoder.pulls_listed (cfg := cfg) (d := .fresh ⟨xs, .endOfStream, p⟩) rfl rfl
  refine ⟨_, hpulls.concat (answers_of_pullDecoder rfl (pullDecoder_end (by simp; omega) rfl)), ?_, ?_⟩
  · simp [Instance.runStatus]
  · simp

end Decoder

/-- Settles O44: the pulls of each kind around a source without a terminal answer, carried out by the machine. -/
theorem endlessSourceMakesEveryPullYieldAByte : Obligations.EndlessSourceMakesEveryPullYieldAByte := by
  refine ⟨fun s k n m e he hf ht hm => ?_, fun s k n m d hd hf ht hm => ?_⟩
  · obtain ⟨vs, reads, buf, rfl, hcount, hpulls⟩ := e.pulls_endless (v := s.cfg.variant) hf ht m
    obtain ⟨w, hlast⟩ : ∃ w, vs.getLast? = some w := ⟨_, List.getLast?_eq_some_getLast (List.length_pos_iff.mp hm)⟩
    have hrun := runInstrs_encNext he hpulls (r := .out w) (by simp [hlast])
    refine ⟨⟨e.yielding reads vs, buf⟩, vs, w, by simpa using hrun, rfl, hlast, rfl, hf, ?_⟩
    simp only [Encoder.bufValid, Instance.yielding_source]
    omega
  · obtain ⟨vs, rfl, hpulls⟩ := d.pulls_endless (cfg := s.cfg) hf ht m
    obtain ⟨w, hlast⟩ : ∃ w, vs.getLast? = some w := ⟨_, List.getLast?_eq_some_getLast (List.length_pos_iff.mp hm)⟩
    have hrun := runInstrs_decNext hd hpulls (r := .out w) (by simp [hlast])
    exact ⟨⟨d.yielding (2 * vs.length) vs⟩, vs, w, by simpa using hrun, rfl, hlast, rfl, hf, rfl⟩

/-! ## The round trip -/

/-- An encoder constructed around bytes and pulled once more than it has codewords: the run is complete and has yielded the
encoded stream (41_encoder.md R60, R65). -/
theorem runInstrs_encode (s : State) (xs : List Byte) :
    ∃ (t : State) (e : Encoder),
      runInstrs (.encNew ⟨xs, .endOfStream, 0⟩ ::
        List.replicate (2 * xs.length + 1) (.encNext s.encoders.length)) s = .next t ∧
      t.cfg = s.cfg ∧ t.encoders[s.encoders.length]? = some e ∧ e.runStatus = .complete ∧
      outputs e.results = encodedStream s.cfg.variant xs := by
  obtain ⟨e, hpulls, hcomplete, houtputs⟩ := Encoder.fresh_pulls_to_end s.cfg.variant xs 0
  have hrun := runInstrs_encNext (k := s.encoders.length)
    (s := (s.addEncoder (.fresh ⟨xs, .endOfStream, 0⟩)).withAnswer (.encoder s.encoders.length)) (by simp) hpulls
    List.getLast?_concat
  simp only [List.length_append, List.length_map, encodedStream_length, List.length_singleton] at hrun
  exact ⟨_, e, hrun, rfl, by simp, hcomplete, houtputs⟩

/-- A decoder constructed around whole pairs and pulled once more than there are pairs: the run is complete and has yielded
the decoded stream (42_decoder.md R70, R82). -/
theorem runInstrs_decode (s : State) {ys : List Byte} (heven : ys.length % 2 = 0) :
    ∃ (t : State) (d : Decoder),
      runInstrs (.decNew ⟨ys, .endOfStream, 0⟩ ::
        List.replicate ((decodedStream s.cfg.variant ys).length + 1) (.decNext s.decoders.length)) s = .next t ∧
      t.decoders[s.decoders.length]? = some d ∧ d.runStatus = .complete ∧
      outputs d.results = decodedStream s.cfg.variant ys := by
  obtain ⟨d, hpulls, hcomplete, houtputs⟩ := Decoder.fresh_pulls_to_end s.cfg heven 0
  have hrun := runInstrs_decNext (k := s.decoders.length)
    (s := (s.addDecoder (.fresh ⟨ys, .endOfStream, 0⟩)).withAnswer (.decoder s.decoders.length)) (by simp) hpulls
    List.getLast?_concat
  simp only [List.length_append, List.length_map, List.length_singleton] at hrun
  exact ⟨_, d, hrun, by simp, hcomplete, houtputs⟩

/-- Settles O40: the encoder's run yields the encoded stream, the decoder's run its decoding, which is the bytes given. -/
theorem decodingTheEncodedStreamGivesItBack : Obligations.DecodingTheEncodedStreamGivesItBack := by
  intro s xs
  obtain ⟨t, e, hencode, hcfg, he, hcomplete, hencoded⟩ := runInstrs_encode s xs
  have hlen : (outputs e.results).length = 2 * xs.length := by rw [hencoded, encodedStream_length]
  have hdecoded : decodedStream t.cfg.variant (outputs e.results) = xs := by
    rw [hencoded, hcfg, decodedStream_encodedStream]
  obtain ⟨u, d, hdecode, hd, hcomplete', hyielded⟩ := runInstrs_decode t (ys := outputs e.results) (by omega)
  rw [hdecoded] at hdecode hyielded
  exact ⟨t, u, e, d, hencode, he, hcomplete, hlen, hdecode, hd, hcomplete', hyielded⟩

end Sys2Proof.Machine

/-! PROOFS. The encoding: the decoder against the encoder's words in both directions (30_encoding.md R44; logs 1, 2), and the
sixteen codewords with their distance (30_encoding.md R40). -/

namespace Sys2Proof

open Sys2Proof.Machine

/-- Settles O36: each operand is read back from its bytes, a source by induction on its bytes and a number by induction. -/
theorem decodingAnEncodedOperationGivesItBack : Obligations.DecodingAnEncodedOperationGivesItBack :=
  fun _ rest hwf => decode_encode_append hwf rest

/-! ## What an operand reader accepts is what the operand writer writes -/

theorem takeByte_eq_ok {w rest : List Byte} {b : Byte} (h : takeByte w = .ok b rest) : w = b :: rest := by
  cases w with
  | nil => cases h
  | cons b' w => cases h; rfl

theorem takeNib_eq_ok {w rest : List Byte} {n : Nib} (h : takeNib w = .ok n rest) : w = joinNibbles 0#4 n :: rest := by
  cases w with
  | nil => cases h
  | cons b w =>
    rw [takeNib] at h
    split_ifs at h with hhi
    cases h
    rw [← hhi, joinNibbles_split]

theorem takePar_eq_ok {w rest : List Byte} {p : Par} (h : takePar w = .ok p rest) : w = (0#5 ++ p : Byte) :: rest := by
  cases w with
  | nil => cases h
  | cons b w =>
    rw [takePar] at h
    split_ifs at h with hhi
    cases h
    have hsplit : ∀ b : Byte, (b.extractLsb' 3 5 ++ b.extractLsb' 0 3 : Byte) = b := by decide
    rw [← hhi, hsplit]

theorem takeNumber_eq_ok {w rest : List Byte} {k : Nat} (h : takeNumber w = .ok k rest) : w = putNumber k ++ rest := by
  induction w generalizing k with
  | nil => cases h
  | cons t w ih =>
    rw [takeNumber] at h
    split_ifs at h with hzero hone
    · cases h
      rw [hzero]
      rfl
    · obtain ⟨k', rest', htake, hret⟩ := Parse.andThen_eq_ok h
      cases hret
      rw [hone, ih htake]
      rfl

theorem takeSource_eq_ok : ∀ {w rest : List Byte} {src : Source}, takeSource w = .ok src rest →
    src.unread = true ∧ w = putSource src ++ rest
  | [], _, _, h => by cases h
  | [t], rest, src, h => by
    rw [takeSource] at h
    split_ifs at h with hend herr
    · cases h
      exact ⟨rfl, by rw [hend]; rfl⟩
    · cases h
      exact ⟨rfl, by rw [herr]; rfl⟩
  | t :: v :: w, rest, src, h => by
    rw [takeSource] at h
    split_ifs at h with hend herr hbyte hnever
    · cases h
      exact ⟨rfl, by rw [hend]; rfl⟩
    · cases h
      exact ⟨rfl, by rw [herr]; rfl⟩
    · obtain ⟨src', rest', htake, hret⟩ := Parse.andThen_eq_ok h
      cases hret
      obtain ⟨hunread, hw⟩ := takeSource_eq_ok htake
      exact ⟨hunread, by rw [hbyte, hw]; rfl⟩
    · obtain ⟨k, rest', htake, hret⟩ := Parse.andThen_eq_ok h
      cases hret
      exact ⟨rfl, by rw [hnever, takeNumber_eq_ok htake]; rfl⟩

/-! ## What the decoder accepts -/

/-- A row that fixes all eight bits matches its value only. -/
theorem OpRow.eq_value_of_matches {r : OpRow} {b : Byte} (hmask : r.mask = 0xFF#8) (h : r.matches b = true) :
    b = r.value := by
  have hand : b &&& 0xFF#8 = b := BitVec.and_allOnes
  simpa [OpRow.matches, hmask, hand] using h

/-- ENCODE's row fixes bit 3 to 0 and no other bit. -/
theorem rowEncode_matches_iff (b : Byte) : rowEncode.matches b = true ↔ b.getLsbD 3 = false := by
  revert b; decide

/-- The bytes w are the word of an operation other than ENCODE, well formed, followed by rest. -/
structure IsOtherWord (w : List Byte) (i : Instr) (rest : List Byte) : Prop where
  wf : i.wf = true
  ne_encodeNibble : ∀ n, i ≠ .encodeNibble n
  word : w = encode i ++ rest

/-- An operation whose word is a fixed first byte and one operand, read by the operand's reader. -/
theorem IsOtherWord.of_one_operand {α : Type} {row : OpRow} {op : Byte} {w rest : List Byte} {p : Parse α} {f : α → Instr}
    {i : Instr} (hmask : row.mask = 0xFF#8) (hrow : row.matches op = true)
    (h : (p.andThen fun x r => .ok (f x) r) = .ok i rest)
    (hread : ∀ x, p = .ok x rest → IsOtherWord (row.value :: w) (f x) rest) : IsOtherWord (op :: w) i rest := by
  obtain ⟨x, rest', hp, hret⟩ := Parse.andThen_eq_ok h
  cases hret
  rw [OpRow.eq_value_of_matches hmask hrow]
  exact hread x hp

/-- What the decoder accepts: a byte with bit 3 clear, as the ENCODE of its data bits, or another operation's own word. -/
theorem decode_eq_ok {w rest : List Byte} {i : Instr} (h : decode w = .ok i rest) :
    (∃ b : Byte, w = b :: rest ∧ b.getLsbD 3 = false ∧ i = .encodeNibble (gatherData .literal b)) ∨
      IsOtherWord w i rest := by
  cases w with
  | nil => cases h
  | cons op w =>
    rw [decode] at h
    obtain ⟨hEncode, h⟩ | ⟨-, h⟩ := ite_eq_iff.mp h
    · cases h
      exact .inl ⟨op, rfl, (rowEncode_matches_iff op).mp hEncode, rfl⟩
    right
    obtain ⟨hGetParity, h⟩ | ⟨-, h⟩ := ite_eq_iff.mp h
    · exact .of_one_operand rfl hGetParity h fun n hn => ⟨rfl, nofun, congrArg (_ :: ·) (takeNib_eq_ok hn)⟩
    obtain ⟨hExtractData, h⟩ | ⟨-, h⟩ := ite_eq_iff.mp h
    · exact .of_one_operand rfl hExtractData h fun b hb => ⟨rfl, nofun, congrArg (_ :: ·) (takeByte_eq_ok hb)⟩
    obtain ⟨hExtractParity, h⟩ | ⟨-, h⟩ := ite_eq_iff.mp h
    · exact .of_one_operand rfl hExtractParity h fun b hb => ⟨rfl, nofun, congrArg (_ :: ·) (takeByte_eq_ok hb)⟩
    obtain ⟨hEncNew, h⟩ | ⟨-, h⟩ := ite_eq_iff.mp h
    · exact .of_one_operand rfl hEncNew h fun src hsrc =>
        have ⟨hunread, hw⟩ := takeSource_eq_ok hsrc
        ⟨hunread, nofun, congrArg (_ :: ·) hw⟩
    obtain ⟨hEncNext, h⟩ | ⟨-, h⟩ := ite_eq_iff.mp h
    · exact .of_one_operand rfl hEncNext h fun k hk => ⟨rfl, nofun, congrArg (_ :: ·) (takeNumber_eq_ok hk)⟩
    obtain ⟨hCorrect, h⟩ | ⟨-, h⟩ := ite_eq_iff.mp h
    · obtain ⟨b, r, hb, h⟩ := Parse.andThen_eq_ok h
      obtain ⟨e, r', he, h⟩ := Parse.andThen_eq_ok h
      obtain ⟨g, r'', hg, h⟩ := Parse.andThen_eq_ok h
      cases h
      refine ⟨rfl, nofun, ?_⟩
      rw [OpRow.eq_value_of_matches rfl hCorrect, takeByte_eq_ok hb, takePar_eq_ok he, takePar_eq_ok hg]
      rfl
    obtain ⟨hDecode1, h⟩ | ⟨-, h⟩ := ite_eq_iff.mp h
    · exact .of_one_operand rfl hDecode1 h fun b hb => ⟨rfl, nofun, congrArg (_ :: ·) (takeByte_eq_ok hb)⟩
    obtain ⟨hDecNew, h⟩ | ⟨-, h⟩ := ite_eq_iff.mp h
    · exact .of_one_operand rfl hDecNew h fun src hsrc =>
        have ⟨hunread, hw⟩ := takeSource_eq_ok hsrc
        ⟨hunread, nofun, congrArg (_ :: ·) hw⟩
    obtain ⟨hDecNext, h⟩ | ⟨-, h⟩ := ite_eq_iff.mp h
    · exact .of_one_operand rfl hDecNext h fun k hk => ⟨rfl, nofun, congrArg (_ :: ·) (takeNumber_eq_ok hk)⟩
    · cases h

/-- The data bits of a byte in the normative layout, one by one (40_parity_generator.md R52). -/
theorem gatherData_literal_getLsbD (b : Byte) :
    (gatherData .literal b).getLsbD 3 = b.getLsbD 7 ∧ (gatherData .literal b).getLsbD 2 = b.getLsbD 6 ∧
      (gatherData .literal b).getLsbD 1 = b.getLsbD 5 ∧ (gatherData .literal b).getLsbD 0 = b.getLsbD 2 := by
  simp [gatherData, BitVec.getLsbD_eq_getElem]

/-- Settles O37, by what the decoder accepts: a byte with bit 3 clear, or the word of another operation. -/
theorem decodedWordsAreTheEncodersWords : Obligations.DecodedWordsAreTheEncodersWords := by
  intro w rest i h
  obtain ⟨b, hw, hbit, rfl⟩ | hother := decode_eq_ok h
  · refine ⟨rfl, fun hne => absurd rfl (hne _), fun n hn => ?_⟩
    cases hn
    exact ⟨b, hw, hbit, gatherData_literal_getLsbD b⟩
  · exact ⟨hother.wf, fun _ => hother.word, fun n hn => absurd hn (hother.ne_encodeNibble n)⟩

end Sys2Proof

namespace Sys2Proof.Machine

open Host

/-! ## The codewords -/

/-- ENCODE answers the codeword of its operand and changes nothing else (40_parity_generator.md R51). -/
theorem exec_encodeNibble (n : Nib) (s : State) :
    exec (.encodeNibble n) s = .next { s with answer := some (.byte (encodeNib s.cfg.variant n)) } := rfl

/-- The only byte ENCODE answers. -/
theorem eq_encodeNib_of_exec {n : Nib} {s : State} {c : Byte}
    (h : exec (.encodeNibble n) s = .next { s with answer := some (.byte c) }) : c = encodeNib s.cfg.variant n := by
  simpa [exec_encodeNibble, eq_comm] using h

theorem word8_xor (a b c d e f g h a' b' c' d' e' f' g' h' : Bit) :
    word8 (a ^^^ a') (b ^^^ b') (c ^^^ c') (d ^^^ d') (e ^^^ e') (f ^^^ f') (g ^^^ g') (h ^^^ h') =
      word8 a b c d e f g h ^^^ word8 a' b' c' d' e' f' g' h' := by
  simp only [word8, ← BitVec.xor_append]

theorem getParity_xor (n m : Nib) : getParity (n ^^^ m) = getParity n ^^^ getParity m := by
  revert n m; decide

/-- The codeword of a difference is the difference of the codewords. -/
theorem encodeNib_xor (v : CodecVariant) (n m : Nib) : encodeNib v (n ^^^ m) = encodeNib v n ^^^ encodeNib v m := by
  cases v <;> simp [encodeNib, scatter, getParity_xor, bit_xor, ← word8_xor]

/-- The positions at which two bytes differ are those of the set bits of their difference. -/
theorem filter_getLsbD_bne (c d : Byte) (l : List Nat) :
    (l.filter fun i => c.getLsbD i != d.getLsbD i) = l.filter fun i => (c ^^^ d).getLsbD i := by
  simp

/-- A codeword of a nibble other than 0 has at least three bits set, so by linearity two codewords have distance 3. -/
theorem three_le_setBits_encodeNib : ∀ {n : Nib}, n ≠ 0#4 →
    3 ≤ ((List.range 8).filter fun i => (encodeNib .literal n).getLsbD i).length := by
  decide

/-- Settles O9: the table by its sixteen entries; the distance because the code is linear and no codeword but 0 has fewer
than three bits set. -/
theorem sixteenConformingCodewords : Obligations.SixteenConformingCodewords := by
  intro s hv
  refine ⟨fun n => ⟨encodeNib .literal n, by rw [exec_encodeNibble, hv], by revert n; decide⟩, fun n m c d hne hc hd => ?_⟩
  have hdiff : c ^^^ d = encodeNib .literal (n ^^^ m) := by
    rw [eq_encodeNib_of_exec hc, eq_encodeNib_of_exec hd, hv, encodeNib_xor]
  have hnonzero : n ^^^ m ≠ 0#4 := fun h => hne (BitVec.xor_eq_zero_iff.mp h)
  rw [filter_getLsbD_bne, hdiff]
  exact three_le_setBits_encodeNib hnonzero

end Sys2Proof.Machine

/-! PROOFS. The parity generator (40_parity_generator.md): words of its operations and of others written out, that its
functions are linear, and what its operations and the other pure ones answer. -/

namespace Sys2Proof

open Sys2Proof.Machine

/-- Settles O35: five of the words are the encoder's own words, and a table word of one byte stands for that byte. -/
theorem wordsWrittenOutAreDecoded : Obligations.WordsWrittenOutAreDecoded :=
  ⟨decodeRequest_encode (i := .encodeNibble 0b1010#4) rfl,
    decodeRequest_encode (i := .getParity 0b1011#4) rfl,
    decodeRequest_encode (i := .correct 0b10110010#8 0b010#3 0b110#3) rfl,
    decodeRequest_encode (i := .encNew ⟨[0xAB#8], .endOfStream, 0⟩) rfl,
    decodeRequest_encode (i := .decNext 1) rfl,
    by decide⟩

end Sys2Proof

namespace Sys2Proof.Machine

open Host

/-! ## Linearity -/

/-- The data bits of a difference are the difference of the data bits. -/
theorem extractData_xor (v : CodecVariant) (x y : Byte) :
    extractData v (x ^^^ y) = extractData v x ^^^ extractData v y := by
  cases v <;> simp only [extractData, gatherData, bit_xor, word4_xor]

/-- The parity bits of a difference are the difference of the parity bits. -/
theorem extractParity_xor (v : CodecVariant) (x y : Byte) :
    extractParity v (x ^^^ y) = extractParity v x ^^^ extractParity v y := by
  cases v <;> simp only [extractParity, gatherParity, bit_xor, word3_xor]

/-- Settles O8, function by function: each selects bits or adds selected bits up. -/
theorem codecFunctionsAreLinear : Obligations.CodecFunctionsAreLinear := fun v =>
  ⟨fun a b => ⟨getParity_xor a b, encodeNib_xor v a b⟩, fun x y => ⟨extractData_xor v x y, extractParity_xor v x y⟩⟩

/-! ## The bits of the answers -/

/-- The three parity equations (40_parity_generator.md R50). -/
theorem getParity_getLsbD (n : Nib) :
    (getParity n).getLsbD 2 = (n.getLsbD 3 ^^ n.getLsbD 2 ^^ n.getLsbD 1) ∧
      (getParity n).getLsbD 1 = (n.getLsbD 3 ^^ n.getLsbD 2 ^^ n.getLsbD 0) ∧
      (getParity n).getLsbD 0 = (n.getLsbD 3 ^^ n.getLsbD 1 ^^ n.getLsbD 0) := by
  simp [getParity, BitVec.getLsbD_eq_getElem]

/-- The normative layout of a codeword, bit by bit, for any nibble and any parity triple (30_encoding.md R38). -/
theorem scatter_literal_getLsbD (n : Nib) (p : Par) :
    (scatter .literal n p).getLsbD 7 = n.getLsbD 3 ∧ (scatter .literal n p).getLsbD 6 = n.getLsbD 2 ∧
      (scatter .literal n p).getLsbD 5 = n.getLsbD 1 ∧ (scatter .literal n p).getLsbD 4 = p.getLsbD 2 ∧
      (scatter .literal n p).getLsbD 3 = false ∧ (scatter .literal n p).getLsbD 2 = n.getLsbD 0 ∧
      (scatter .literal n p).getLsbD 1 = p.getLsbD 1 ∧ (scatter .literal n p).getLsbD 0 = p.getLsbD 0 := by
  simp [scatter, BitVec.getLsbD_eq_getElem]

/-- The parity bits of a byte in the normative layout, one by one (40_parity_generator.md R53). -/
theorem gatherParity_literal_getLsbD (b : Byte) :
    (gatherParity .literal b).getLsbD 2 = b.getLsbD 4 ∧ (gatherParity .literal b).getLsbD 1 = b.getLsbD 1 ∧
      (gatherParity .literal b).getLsbD 0 = b.getLsbD 0 := by
  simp [gatherParity, BitVec.getLsbD_eq_getElem]

/-! ## What the operations answer -/

/-- GETPARITY answers the parity triple of its operand and changes nothing else (40_parity_generator.md R50). -/
theorem exec_getParity (n : Nib) (s : State) :
    exec (.getParity n) s = .next { s with answer := some (.par (getParity n)) } := rfl

/-- EXTRACTDATA answers the data bits of its operand and changes nothing else (40_parity_generator.md R52). -/
theorem exec_extractData (b : Byte) (s : State) :
    exec (.extractData b) s = .next { s with answer := some (.nib (extractData s.cfg.variant b)) } := rfl

/-- EXTRACTPARITY answers the parity bits of its operand and changes nothing else (40_parity_generator.md R53). -/
theorem exec_extractParity (b : Byte) (s : State) :
    exec (.extractParity b) s = .next { s with answer := some (.par (extractParity s.cfg.variant b)) } := rfl

/-- CORRECT answers the corrected byte and changes nothing else (42_decoder.md R73). -/
theorem exec_correct (b : Byte) (expected got : Par) (s : State) :
    exec (.correct b expected got) s =
      .next { s with answer := some (.byte (correctByte s.cfg.variant b expected got)) } := rfl

/-- DECODE1 answers the nibble of its operand and changes nothing else (42_decoder.md R74). -/
theorem exec_decode1 (b : Byte) (s : State) :
    exec (.decode1 b) s = .next { s with answer := some (.nib (decodeByte s.cfg.variant b)) } := rfl

/-- A pure operation completes, changes nothing but what its caller gets, and its answer looks at nothing of the state but
the codec variant (40_parity_generator.md R55). -/
theorem exec_pureOperation {i : Instr} (h : pureOperation i = true) :
    ∃ answer : CodecVariant → Answer, ∀ s, exec i s = .next { s with answer := some (answer s.cfg.variant) } := by
  cases i with
  | getParity n => exact ⟨fun _ => .par (getParity n), exec_getParity n⟩
  | encodeNibble n => exact ⟨fun v => .byte (encodeNib v n), exec_encodeNibble n⟩
  | extractData b => exact ⟨fun v => .nib (extractData v b), exec_extractData b⟩
  | extractParity b => exact ⟨fun v => .par (extractParity v b), exec_extractParity b⟩
  | correct b expected got => exact ⟨fun v => .byte (correctByte v b expected got), exec_correct b expected got⟩
  | decode1 b => exact ⟨fun v => .nib (decodeByte v b), exec_decode1 b⟩
  | encNew | encNext | decNew | decNext => cases h

/-- Settles O1, by the parity equations. -/
theorem getParityAnswersTheThreeEquations : Obligations.GetParityAnswersTheThreeEquations := fun n s =>
  ⟨exec_getParity n s, getParity_getLsbD n⟩

/-- Settles O2: the codeword is laid out around the parity triple of the nibble. -/
theorem encodeAnswersTheCodeword : Obligations.EncodeAnswersTheCodeword := fun n s hv =>
  ⟨encodeNib .literal n, hv ▸ exec_encodeNibble n s, scatter_literal_getLsbD n (getParity n)⟩

/-- Settles O3, by the positions of the data bits. -/
theorem extractDataGathersTheDataBits : Obligations.ExtractDataGathersTheDataBits := fun b s hv =>
  ⟨extractData .literal b, hv ▸ exec_extractData b s, gatherData_literal_getLsbD b⟩

/-- Settles O4, by the positions of the parity bits. -/
theorem extractParityGathersTheParityBits : Obligations.ExtractParityGathersTheParityBits := fun b s hv =>
  ⟨extractParity .literal b, hv ▸ exec_extractParity b s, gatherParity_literal_getLsbD b⟩

/-- Settles O6: the codeword of the state's own variant is taken apart by the same variant, so the premise is not used. -/
theorem extractingFromACodewordGivesBack : Obligations.ExtractingFromACodewordGivesBack := by
  intro n s _
  refine ⟨encodeNib s.cfg.variant n, getParity n, exec_encodeNibble n s, exec_getParity n s, ?_, ?_⟩
  · rw [exec_extractParity, extractParity_encodeNib]
  · rw [exec_extractData, extractData_encodeNib]

/-- Settles O7: the answer looks at the codec variant only, and both states have the normative one. -/
theorem pureOperationsDependOnTheirOperandsAlone : Obligations.PureOperationsDependOnTheirOperandsAlone := by
  intro i s s' hi hv hv'
  obtain ⟨answer, hexec⟩ := exec_pureOperation hi
  exact ⟨answer .literal, hv ▸ hexec s, hv' ▸ hexec s'⟩

end Sys2Proof.Machine

/-! PROOFS. The encoder (41_encoder.md): its construction and its pull, the frame of a pull of either kind, that it yields
only codewords, and its run around a fresh source. -/

namespace Sys2Proof.Machine

open Host

/-! ## Construction and the pull -/

/-- Settles O17: the new encoder is the fresh one around the source, after all others. -/
theorem encNewConstructsAnEncoder : Obligations.EncNewConstructsAnEncoder := fun src _ =>
  ⟨.fresh src, rfl, rfl, rfl, rfl, rfl, rfl, rfl⟩

/-- The pull's body says what ENC.NEXT does to the machine: its encoder and the answer change, and nothing else. -/
theorem exec_encNext_of_pullEncoder {s : State} {k : Nat} {e e' : Encoder} {r : PullResult} (he : s.encoders[k]? = some e)
    (hf : e.failed = false) (hp : pullEncoder s.cfg.variant e = (r, e')) :
    exec (.encNext k) s = .next (s.afterEncPull k e' r) :=
  (execEncNext_admitted he hf).trans (by rw [hp]; rfl)

/-- Settles O19: each clause is one case of the pull's body. -/
theorem encNextPullsAnEncoder : Obligations.EncNextPullsAnEncoder := by
  intro s k e he hf
  have hexec {r : PullResult} {e' : Encoder} := exec_encNext_of_pullEncoder (r := r) (e' := e') he hf
  refine ⟨fun c hb => ?_, fun x hb hx => ⟨_, _, exec_encodeNibble _ s, exec_encodeNibble _ s, ?_⟩,
    fun hb hl ht => ?_, fun hb hl ht => ?_⟩
  · exact hexec (pullEncoder_full hb)
  · exact hexec (pullEncoder_byte hb hx)
  · exact hexec (pullEncoder_end hb hl ht)
  · exact hexec (pullEncoder_err hb hl ht)

/-! ## The frame of a pull -/

/-- What a pull makes of an encoder's streams: one more result, and a byte read at most when nothing was buffered
(20_memory.md R29). -/
theorem Encoder.Answers.toInstance_eq {v : CodecVariant} {e e' : Encoder} {r : PullResult} (h : e.Answers v r e') :
    ∃ p failed, e'.toInstance = e.pulled p failed r ∧
      (p = e.source.pos ∨ p = e.source.pos + 1 ∧ e.encBuf = none) := by
  obtain ⟨⟨-, rfl⟩, rfl⟩ := h
  rcases pullEncoder_cases v e with ⟨c, -, hp⟩ | ⟨x, hb, -, hp⟩ | ⟨-, -, -, hp⟩ | ⟨-, -, -, hp⟩ <;>
    rw [Encoder.afterPull, hp]
  · exact ⟨_, _, rfl, .inl rfl⟩
  · exact ⟨_, _, rfl, .inr ⟨rfl, hb⟩⟩
  · exact ⟨_, _, rfl, .inl rfl⟩
  · exact ⟨_, _, rfl, .inl rfl⟩

/-- What a pull makes of a decoder's streams: one more result, and at most two bytes read. -/
theorem Decoder.Answers.toInstance_eq {cfg : Config} {d d' : Decoder} {r : PullResult} (h : d.Answers cfg r d') :
    ∃ p failed, d'.toInstance = d.pulled p failed r ∧ d.source.pos ≤ p ∧ p ≤ d.source.pos + 2 := by
  obtain ⟨⟨-, rfl⟩, rfl⟩ := h
  rcases pullDecoder_cases cfg d.toInstance with ⟨b0, b1, -, -, hp⟩ | ⟨-, -, hp⟩ | ⟨-, -, hp⟩ | ⟨-, -, hp⟩ |
    ⟨-, -, -, hp⟩ | ⟨-, -, -, hp⟩ <;> rw [Decoder.afterPull, hp] <;> exact ⟨_, _, rfl, by simp⟩

/-- ENC.NEXT gives a next state only by a pull of its encoder, and changes that encoder and the answer alone. -/
theorem exec_encNext_next {s t : State} {k : Nat} (h : exec (.encNext k) s = .next t) :
    ∃ e e' r, s.encoders[k]? = some e ∧ e.Answers s.cfg.variant r e' ∧
      t = { s with encoders := s.encoders.set k e', answer := some (.pull r) } := by
  obtain ⟨e, he, hf, rfl⟩ := execEncNext_next h
  exact ⟨e, _, _, he, ⟨⟨hf, rfl⟩, rfl⟩, rfl⟩

/-- DEC.NEXT gives a next state only by a pull of its decoder, and changes that decoder and the answer alone. -/
theorem exec_decNext_next {s t : State} {k : Nat} (h : exec (.decNext k) s = .next t) :
    ∃ d d' r, s.decoders[k]? = some d ∧ d.Answers s.cfg r d' ∧
      t = { s with decoders := s.decoders.set k d', answer := some (.pull r) } := by
  obtain ⟨d, hd, hf, rfl⟩ := execDecNext_next h
  exact ⟨d, _, _, hd, ⟨⟨hf, rfl⟩, rfl⟩, rfl⟩

/-- Settles O23: a pull replaces its own instance by one with the same source content and one more result. -/
theorem aPullChangesOnlyItsOwnInstance : Obligations.APullChangesOnlyItsOwnInstance := by
  refine ⟨fun s t k h => ?_, fun s t k h => ?_⟩
  · obtain ⟨e, e', r, he, hans, rfl⟩ := exec_encNext_next h
    obtain ⟨p, failed, hinst, hpos⟩ := hans.toInstance_eq
    have hget : (s.encoders.set k e')[k]? = some e' := List.getElem?_set_self (List.getElem?_eq_some_iff.mp he).1
    refine ⟨rfl, rfl, rfl, List.length_set, fun j hj => List.getElem?_set_ne hj.symm, e, e', r, he, hget, rfl, ?_⟩
    rw [hinst]
    exact ⟨rfl, rfl, rfl, hpos⟩
  · obtain ⟨d, d', r, hd, hans, rfl⟩ := exec_decNext_next h
    obtain ⟨p, failed, hinst, hpos⟩ := hans.toInstance_eq
    have hget : (s.decoders.set k d')[k]? = some d' := List.getElem?_set_self (List.getElem?_eq_some_iff.mp hd).1
    refine ⟨rfl, rfl, rfl, List.length_set, fun j hj => List.getElem?_set_ne hj.symm, d, d', r, hd, hget, rfl, ?_⟩
    rw [hinst]
    exact ⟨rfl, rfl, rfl, hpos⟩

/-! ## Only codewords are yielded -/

/-- A byte that a pull yields is the one buffered before it or the codeword of a nibble of the byte read. -/
theorem Encoder.Answers.buffered_or_codeword {v : CodecVariant} {e e' : Encoder} {c : Byte}
    (h : e.Answers v (.out c) e') : e.encBuf = some c ∨ ∃ n, c = encodeNib v n := by
  have hresult := h.result
  rcases pullEncoder_cases v e with ⟨b, hb, hp⟩ | ⟨x, -, -, hp⟩ | ⟨-, -, -, hp⟩ | ⟨-, -, -, hp⟩ <;>
    rw [hp] at hresult
  · obtain rfl : b = c := by simpa using hresult
    exact .inl hb
  · exact .inr ⟨nibHi x, by simpa using hresult.symm⟩
  · cases hresult
  · cases hresult

/-- Settles O30: a byte is yielded from the buffer, which holds a codeword in a sound machine, or encoded in the pull; a
byte to read is encoded whatever it is. -/
theorem encoderYieldsOnlyCodewords : Obligations.EncoderYieldsOnlyCodewords := by
  intro s hs hv
  refine ⟨fun t k c h hout => ?_, fun k e x he hf hb hx => ?_⟩
  · obtain ⟨e, e', r, he, hans, rfl⟩ := exec_encNext_next h
    obtain rfl : r = .out c := by simpa using hout
    obtain ⟨n, rfl⟩ : ∃ n, c = encodeNib s.cfg.variant n := by
      obtain hbuf | hcode := hans.buffered_or_codeword
      · obtain ⟨x, -, -, hlo⟩ := bufferHoldsTheLowerNibblesCodeword s e c hs (List.mem_of_getElem? he) hbuf
        exact ⟨nibLo x, hlo⟩
      · exact hcode
    obtain ⟨-, -, -, -, hbit3, -⟩ := scatter_literal_getLsbD n (getParity n)
    exact ⟨hv ▸ hbit3, n, exec_encodeNibble n s⟩
  · exact ⟨_, _, exec_encNext_of_pullEncoder he hf (pullEncoder_byte hb hx), rfl⟩

/-! ## The run of a fresh encoder -/

/-- The pull of an encoder that has read exactly the listed bytes, has nothing buffered and has answered no End: End, the
fatal signal, or the first codeword of the byte after the listed ones; and what becomes of the run (70_reset_and_hazards.md
R105). -/
theorem Encoder.answers_after_listed {v : CodecVariant} {e : Encoder} (hf : e.failed = false) (hb : e.encBuf = none)
    (hpos : e.source.pos = e.source.bytes.length) (hlive : .endOfStream ∉ e.results) :
    ∃ last e', e.Answers v last e' ∧
      (e.source.term = .endOfStream → last = .endOfStream ∧ e'.runStatus = .complete) ∧
      (e.source.term = .err → last = .raised .sourceReadError ∧ e'.runStatus = .failed) ∧
      (∀ n, e.source.term = .never n →
        last = .out (encodeNib v (nibHi (Config.endlessByte n e.source.bytes.length))) ∧ e'.runStatus = .unfinished) := by
  refine ⟨_, _, ⟨⟨hf, rfl⟩, rfl⟩, fun ht => ?_, fun ht => ?_, fun n ht => ?_⟩ <;> rw [Encoder.afterPull]
  · rw [pullEncoder_end hb hpos.ge ht]
    simp [Instance.runStatus, hf]
  · rw [pullEncoder_err hb hpos.ge ht]
    simp [Instance.runStatus]
  · rw [pullEncoder_byte hb (Source.byteAt_never hpos.ge ht), hpos]
    simp [Instance.runStatus, hf, hlive]

/-- Settles O38: the pulls yield the codewords of the listed bytes, the source's terminal answer decides the last of them,
and the machine carries them out. -/
theorem encoderRunYieldsTheWholeStream : Obligations.EncoderRunYieldsTheWholeStream := by
  intro s k src hsrc
  have hlisted := Encoder.pulls_listed (v := s.cfg.variant) (e := .fresh src) rfl rfl rfl
  obtain ⟨last, e, hans, hend, herr, hnever⟩ := Encoder.answers_after_listed (v := s.cfg.variant)
    (e := ⟨(Encoder.fresh src).yielding src.bytes.length (encodedStream s.cfg.variant src.bytes), none⟩)
    rfl rfl (Nat.zero_add _) (by simp)
  obtain ⟨p, failed, hinst, -⟩ := hans.toInstance_eq
  have hrun := runInstrs_encNext hsrc (hlisted.concat hans) List.getLast?_concat
  simp only [List.length_append, List.length_map, encodedStream_length, List.length_singleton] at hrun
  exact ⟨e, last, hrun, by rw [hinst]; rfl, encodedStream_length _ _, hend, herr, hnever⟩

end Sys2Proof.Machine

/-! PROOFS. The decoder (42_decoder.md): the syndrome and the correction of a byte, what DECODE1 answers for any byte and for
a codeword with and without an error, the decoder's construction and pull, and its run around a fresh source. -/

namespace Sys2Proof.Machine

open Host

/-! ## The syndrome -/

/-- The three syndrome equations (42_decoder.md R72). -/
theorem syndrome_literal_getLsbD (b : Byte) :
    (syndrome .literal b).getLsbD 2 = (b.getLsbD 7 ^^ b.getLsbD 6 ^^ b.getLsbD 5 ^^ b.getLsbD 4) ∧
      (syndrome .literal b).getLsbD 1 = (b.getLsbD 7 ^^ b.getLsbD 6 ^^ b.getLsbD 2 ^^ b.getLsbD 1) ∧
      (syndrome .literal b).getLsbD 0 = (b.getLsbD 7 ^^ b.getLsbD 5 ^^ b.getLsbD 2 ^^ b.getLsbD 0) := by
  simp only [syndrome, expectedParity, extractData, extractParity, BitVec.getLsbD_xor, getParity_getLsbD,
    gatherData_literal_getLsbD, gatherParity_literal_getLsbD, Bool.xor_assoc, and_self]

/-- The syndrome of a difference is the difference of the syndromes. -/
theorem syndrome_xor (v : CodecVariant) (x y : Byte) : syndrome v (x ^^^ y) = syndrome v x ^^^ syndrome v y := by
  simp only [syndrome, expectedParity, extractData_xor, extractParity_xor, getParity_xor]
  ac_rfl

/-- A codeword has the syndrome zero. -/
@[simp] theorem syndrome_encodeNib (v : CodecVariant) (n : Nib) : syndrome v (encodeNib v n) = 0 := by
  simp [syndrome, expectedParity, extractData_encodeNib, extractParity_encodeNib]

/-- An error has the same syndrome on top of every codeword (42_decoder.md R79). -/
theorem syndrome_encodeNib_xor (v : CodecVariant) (n : Nib) (e : Byte) :
    syndrome v (encodeNib v n ^^^ e) = syndrome v e := by
  simp [syndrome_xor]

/-- A byte is its data and parity bits in the normative layout, up to bit 3, which the layout does not use. -/
theorem eq_scatter_or_bit_three (b : Byte) :
    b = scatter .literal (extractData .literal b) (extractParity .literal b) ∨
      b = scatter .literal (extractData .literal b) (extractParity .literal b) ^^^ 0x08#8 := by
  revert b; decide

/-- The syndrome is zero exactly for the codewords and the codewords with bit 3 set (42_decoder.md R72). -/
theorem syndrome_literal_eq_zero_iff (b : Byte) :
    syndrome .literal b = 0 ↔ ∃ n, b = encodeNib .literal n ∨ b = encodeNib .literal n ^^^ 0x08#8 := by
  constructor
  · intro h
    have hparity : getParity (extractData .literal b) = extractParity .literal b := BitVec.xor_eq_zero_iff.mp h
    exact ⟨extractData .literal b, by simpa only [encodeNib, hparity] using eq_scatter_or_bit_three b⟩
  · rintro ⟨n, rfl | rfl⟩
    · exact syndrome_encodeNib _ n
    · rw [syndrome_encodeNib_xor]; decide

/-- Settles O10: the exclusive-or of the two triples is the syndrome. -/
theorem syndromeOfAReceivedByte : Obligations.SyndromeOfAReceivedByte := by
  intro b s hv
  obtain ⟨h2, h1, h0⟩ := syndrome_literal_getLsbD b
  exact ⟨_, _, _, hv ▸ exec_extractParity b s, hv ▸ exec_extractData b s, exec_getParity _ s, h2, h1, h0,
    syndrome_literal_eq_zero_iff b⟩

/-! ## The correction -/

/-- The normative flip mask has the one bit diff >> 1 set (42_decoder.md R73). -/
theorem flipMask_literal_getLsbD (diff : Par) {i : Nat} (hi : i < 8) :
    (flipMask .literal diff).getLsbD i = decide (i = diff.toNat / 2) := by
  have hpos : flipPos diff = diff.toNat / 2 := by simp [flipPos, Nat.shiftRight_one]
  rw [flipMask, hpos, Bool.eq_iff_iff]
  simp only [BitVec.getLsbD_shiftLeft, BitVec.getLsbD_one, Bool.and_eq_true, Bool.not_eq_true', decide_eq_true_eq,
    decide_eq_false_iff_not]
  omega

/-- Settles O11, by the bits of the flip mask. -/
theorem correctFlipsTheBitOfTheFormula : Obligations.CorrectFlipsTheBitOfTheFormula := by
  intro b expected got s hv
  refine ⟨correctByte .literal b expected got, hv ▸ exec_correct b expected got s, fun i hi => ?_⟩
  rw [correctByte, BitVec.getLsbD_xor, flipMask_literal_getLsbD _ hi]

/-- Settles O12: DECODE1 is defined by the four steps, so the premise is not used. -/
theorem decodeOneIsTheFourSteps : Obligations.DecodeOneIsTheFourSteps := fun b s _ =>
  ⟨_, _, _, _, _, exec_extractParity b s, exec_extractData b s, exec_getParity _ s, exec_correct b _ _ s,
    exec_extractData _ s, exec_decode1 b s⟩

/-! ## DECODE1 of any byte -/

/-- What DECODE1 answers: the data bits of the byte, and the correction's share in them (42_decoder.md R81). -/
theorem decodeByte_eq (v : CodecVariant) (b : Byte) :
    decodeByte v b = extractData v b ^^^ extractData v (flipMask v (syndrome v b)) :=
  extractData_xor v b _

/-- The only data bit that the normative mask can have set is bit 2, and it is set exactly when diff >> 1 is 2. -/
theorem flipMask_literal_dataBits (diff : Par) :
    (flipMask .literal diff).getLsbD 7 = false ∧ (flipMask .literal diff).getLsbD 6 = false ∧
      (flipMask .literal diff).getLsbD 5 = false ∧
      (flipMask .literal diff).getLsbD 2 = (diff.getLsbD 2 && !diff.getLsbD 1) := by
  revert diff; decide

/-- The normative flip mask does not look at bit 0 of the syndrome. -/
theorem flipMask_literal_xor {diff diff' : Par} (h : diff' >>> 1 = 0) :
    flipMask .literal (diff ^^^ diff') = flipMask .literal diff := by
  simp [flipMask, flipPos, BitVec.ushiftRight_xor_distrib, h]

/-- Inverting bits that are no data bits and count for nothing but bit 0 of the syndrome does not change what DECODE1
answers (42_decoder.md R81). -/
theorem decodeByte_literal_xor {m : Byte} (hdata : extractData .literal m = 0) (hsyndrome : syndrome .literal m >>> 1 = 0)
    (b : Byte) : decodeByte .literal (b ^^^ m) = decodeByte .literal b := by
  simp [decodeByte_eq, extractData_xor, syndrome_xor, flipMask_literal_xor hsyndrome, hdata]

/-- Settles O13: the data bits with the mask's share, and bits 3 and 0 are no data bits and leave diff >> 1 as it is. -/
theorem decodeOneClosedForm : Obligations.DecodeOneClosedForm := by
  intro b s hv
  have hxor {m : Byte} (hdata : extractData .literal m = 0) (hsyndrome : syndrome .literal m >>> 1 = 0) :
      exec (.decode1 (b ^^^ m)) s = exec (.decode1 b) s := by
    rw [exec_decode1, exec_decode1, hv, decodeByte_literal_xor hdata hsyndrome]
  refine ⟨⟨decodeByte .literal b, hv ▸ exec_decode1 b s, ?_⟩, hxor rfl rfl, hxor rfl rfl, hxor rfl rfl⟩
  simp only [decodeByte_eq, BitVec.getLsbD_xor, extractData, gatherData_literal_getLsbD, flipMask_literal_dataBits,
    syndrome_literal_getLsbD, Bool.xor_false, and_self]

/-! ## DECODE1 of a codeword with and without an error -/

/-- An error makes the same difference in the nibble whatever the codeword under it (42_decoder.md R80). -/
theorem decodeByte_encodeNib_xor (v : CodecVariant) (n : Nib) (e : Byte) :
    decodeByte v (encodeNib v n ^^^ e) = n ^^^ decodeByte v e := by
  simp only [decodeByte_eq, syndrome_encodeNib_xor, extractData_xor, extractData_encodeNib, BitVec.xor_assoc]

/-- CORRECT given the same triple twice inverts bit 0 (42_decoder.md R78). -/
theorem correctByte_literal_self (b : Byte) (p : Par) : correctByte .literal b p p = b ^^^ 0x01#8 := by
  rw [correctByte, BitVec.xor_self]; rfl

/-- A codeword with bit 0 inverted is no codeword, because its syndrome is not zero. -/
theorem encodeNib_xor_one_ne (n m : Nib) : encodeNib .literal n ^^^ 0x01#8 ≠ encodeNib .literal m := by
  intro h
  have hsyndrome := congrArg (syndrome .literal) h
  rw [syndrome_encodeNib_xor, syndrome_encodeNib] at hsyndrome
  exact absurd hsyndrome (by decide)

/-- Settles O14: the two triples of a codeword agree, and a codeword decodes to its nibble. -/
theorem uncorruptedCodewordIsDecoded : Obligations.UncorruptedCodewordIsDecoded := by
  intro n s hv
  refine ⟨⟨encodeNib .literal n, getParity n, hv ▸ exec_encodeNibble n s, exec_getParity n s, ?_, ?_, fun m h => ?_, ?_⟩,
    fun x => decodedStream_encodedStream _ [x]⟩
  · rw [exec_extractParity, hv, extractParity_encodeNib]
  · rw [exec_correct, hv, correctByte_literal_self]
  · exact encodeNib_xor_one_ne n m ((eq_encodeNib_of_exec h).trans (by rw [hv]))
  · rw [exec_decode1, hv, decodeByte_encodeNib]

/-- The syndromes of the eight single-bit errors (42_decoder.md R79). -/
theorem syndrome_literal_singleBit : ∀ i < 8,
    ([1, 2, 3, 0, 4, 5, 6, 7] : List Par)[i]? = some (syndrome .literal (1#8 <<< i)) := by
  decide

/-- The differences that the eight single-bit errors make in the nibble (42_decoder.md R80). -/
theorem decodeByte_literal_singleBit : ∀ i < 8,
    ([0, 0, 1, 0, 1, 3, 4, 8] : List Nib)[i]? = some (decodeByte .literal (1#8 <<< i)) := by
  decide

/-- The single-bit errors that DECODE1 leaves without effect. -/
theorem decodeByte_literal_singleBit_eq_zero_iff : ∀ i < 8,
    decodeByte .literal (1#8 <<< i) = 0 ↔ i = 0 ∨ i = 1 ∨ i = 3 := by
  decide

/-- Settles O15: what an error makes of the syndrome and of the nibble is independent of the codeword, so the tables are
those of the eight errors themselves. -/
theorem oneFlippedBitIsDecodedAsTabled : Obligations.OneFlippedBitIsDecodedAsTabled := by
  intro n s hv
  refine ⟨encodeNib .literal n, hv ▸ exec_encodeNibble n s, fun i hi => ⟨_, _, _, syndrome_literal_singleBit i hi,
    decodeByte_literal_singleBit i hi, rfl, syndrome_encodeNib_xor _ n _, ?_, ?_⟩⟩
  · rw [exec_decode1, hv, decodeByte_encodeNib_xor]
  · rw [← decodeByte_literal_singleBit_eq_zero_iff i hi]
    simp

/-! ## Construction and the pull -/

/-- Settles O18: the new decoder is the fresh one around the source, after all others. -/
theorem decNewConstructsADecoder : Obligations.DecNewConstructsADecoder := fun src _ =>
  ⟨.fresh src, rfl, rfl, rfl, rfl, rfl, rfl⟩

/-- The pull's body says what DEC.NEXT does to the machine: its decoder and the answer change, and nothing else. -/
theorem exec_decNext_of_pullDecoder {s : State} {k : Nat} {d d' : Decoder} {r : PullResult} (hd : s.decoders[k]? = some d)
    (hf : d.failed = false) (hp : pullDecoder s.cfg d.toInstance = (r, d'.toInstance)) :
    exec (.decNext k) s = .next (s.afterDecPull k d' r) :=
  (execDecNext_admitted hd hf).trans (by rw [hp]; rfl)

/-- An odd tail under the policy `fault` (42_decoder.md R76). -/
theorem pullDecoder_odd_fault {cfg : Config} {i : Instance} (hl : i.source.pos + 1 = i.source.bytes.length)
    (ht : i.source.term = .endOfStream) (hpolicy : cfg.oddTail = .fault) :
    pullDecoder cfg i = (.raised .malformedLength,
      { i with source := { i.source with pos := i.source.pos + 1 }, failed := true }) := by
  rw [pullDecoder_odd hl ht, hpolicy]; rfl

/-- An odd tail under the policy `discard` (42_decoder.md R76). -/
theorem pullDecoder_odd_discard {cfg : Config} {i : Instance} (hl : i.source.pos + 1 = i.source.bytes.length)
    (ht : i.source.term = .endOfStream) (hpolicy : cfg.oddTail = .discard) :
    pullDecoder cfg i = (.endOfStream, { i with source := { i.source with pos := i.source.pos + 1 } }) := by
  rw [pullDecoder_odd hl ht, hpolicy]; rfl

/-- Settles O20: each clause is one case of the pull's body. -/
theorem decNextPullsADecoder : Obligations.DecNextPullsADecoder := by
  intro s k d hd hf
  have hexec {r : PullResult} {d' : Decoder} := exec_decNext_of_pullDecoder (r := r) (d' := d') hd hf
  refine ⟨fun b0 b1 h0 h1 => ⟨_, _, exec_decode1 b0 s, exec_decode1 b1 s, ?_⟩, fun hl ht => ?_, fun hl ht => ?_,
    fun hl ht => ?_, fun hl ht hpolicy => ?_, fun hl ht hpolicy => ?_⟩
  · exact hexec (pullDecoder_pair h0 h1)
  · exact hexec (pullDecoder_end hl ht)
  · exact hexec (pullDecoder_err hl ht)
  · exact hexec (pullDecoder_second_err hl ht)
  · exact hexec (pullDecoder_odd_fault hl ht hpolicy)
  · exact hexec (pullDecoder_odd_discard hl ht hpolicy)

/-! ## The run of a fresh decoder -/

/-- One byte is decoded from every two (20_memory.md R28 item 4). -/
theorem decodedStream_length (v : CodecVariant) : ∀ xs : List Byte, (decodedStream v xs).length = xs.length / 2
  | [] => rfl
  | [_] => by simp [decodedStream]
  | _ :: _ :: xs => by
    simp only [decodedStream, List.length_cons, decodedStream_length v xs]
    omega

/-- The pull of a decoder that has read exactly the whole pairs among the listed bytes and has answered no End: End, the
fatal signal, the odd tail's outcome, or the byte of the next pair; and what becomes of the run (70_reset_and_hazards.md
R105). -/
theorem Decoder.answers_after_pairs {cfg : Config} {d : Decoder} (hf : d.failed = false)
    (hpos : d.source.pos = d.source.bytes.length / 2 * 2) (hlive : .endOfStream ∉ d.results) :
    ∃ last d', d.Answers cfg last d' ∧
      (d.source.term = .err → last = .raised .sourceReadError ∧ d'.runStatus = .failed) ∧
      (d.source.term = .endOfStream → d.source.bytes.length % 2 = 0 → last = .endOfStream ∧ d'.runStatus = .complete) ∧
      (d.source.term = .endOfStream → d.source.bytes.length % 2 = 1 → cfg.oddTail = .fault →
        last = .raised .malformedLength ∧ d'.runStatus = .failed) ∧
      (d.source.term = .endOfStream → d.source.bytes.length % 2 = 1 → cfg.oddTail = .discard →
        last = .endOfStream ∧ d'.runStatus = .complete) ∧
      (∀ n, d.source.term = .never n → ∃ b0 b1,
        d.source.byteAt (d.source.bytes.length / 2 * 2) = some b0 ∧
        d.source.byteAt (d.source.bytes.length / 2 * 2 + 1) = some b1 ∧
        last = .out (joinNibbles (decodeByte cfg.variant b0) (decodeByte cfg.variant b1)) ∧
        d'.runStatus = .unfinished) := by
  refine ⟨_, _, ⟨⟨hf, rfl⟩, rfl⟩, fun ht => ?_, fun ht heven => ?_, fun ht hodd hpolicy => ?_, fun ht hodd hpolicy => ?_,
    fun n ht => ?_⟩
  · obtain heven | hodd := Nat.mod_two_eq_zero_or_one d.source.bytes.length
    · rw [Decoder.afterPull, pullDecoder_err (by omega) ht]
      simp [Instance.runStatus]
    · rw [Decoder.afterPull, pullDecoder_second_err (by omega) ht]
      simp [Instance.runStatus]
  · rw [Decoder.afterPull, pullDecoder_end (by omega) ht]
    simp [Instance.runStatus, hf]
  · rw [Decoder.afterPull, pullDecoder_odd_fault (by omega) ht hpolicy]
    simp [Instance.runStatus]
  · rw [Decoder.afterPull, pullDecoder_odd_discard (by omega) ht hpolicy]
    simp [Instance.runStatus, hf]
  · obtain ⟨b0, h0⟩ := Source.byteAt_of_never ht d.source.pos
    obtain ⟨b1, h1⟩ := Source.byteAt_of_never ht (d.source.pos + 1)
    rw [Decoder.afterPull, pullDecoder_pair h0 h1]
    exact ⟨b0, b1, hpos ▸ h0, hpos ▸ h1, rfl, by simp [Instance.runStatus, hf, hlive]⟩

/-- Settles O39: the pulls yield the bytes decoded from the listed pairs, what the source gives after them decides the last
of them, and the machine carries them out. -/
theorem decoderRunYieldsTheWholeStream : Obligations.DecoderRunYieldsTheWholeStream := by
  intro s k src hsrc
  have hlisted := Decoder.pulls_listed (cfg := s.cfg) (d := .fresh src) rfl rfl
  obtain ⟨last, d, hans, houtcome⟩ := Decoder.answers_after_pairs (cfg := s.cfg)
    (d := ⟨(Decoder.fresh src).yielding (2 * (src.bytes.length / 2)) (decodedStream s.cfg.variant src.bytes)⟩)
    rfl (by simp [Nat.mul_comm]) (by simp)
  obtain ⟨p, failed, hinst, -⟩ := hans.toInstance_eq
  have hrun := runInstrs_decNext hsrc (hlisted.concat hans) List.getLast?_concat
  simp only [List.length_append, List.length_map, decodedStream_length, List.length_singleton] at hrun
  exact ⟨d, last, hrun, by rw [hinst]; rfl, decodedStream_length _ _, houtcome⟩

end Sys2Proof.Machine

/-! PROOFS. Failures and refusals (60_exceptions.md): when a pull and a step are refused, that a step carries out the
operation requested, and what a pull that raises and a pull that answers End leave of their instance. -/

namespace Sys2Proof

open Sys2Proof.Machine

/-- The request of a table word names the operation that the table word does. -/
theorem decodeRequest_of_decodeTableWord {nbits w : Nat} {i : Instr} (h : decodeTableWord nbits w = some i) :
    ∃ rest, decodeRequest (requestOfWord nbits w) = .ok i rest := by
  unfold decodeTableWord at h
  split at h
  next j rest hd =>
    obtain rfl := Option.some.inj h
    exact ⟨rest, hd⟩
  next => cases h

end Sys2Proof

namespace Sys2Proof.Machine

open Host

/-! ## Refused operations -/

/-- ENC.NEXT under a number without an encoder is refused (log 5). -/
theorem exec_encNext_missing {s : State} {k : Nat} (h : s.encoders[k]? = none) :
    exec (.encNext k) s = .refused .noSuchInstance := by
  simp [exec, execEncNext, h]

/-- DEC.NEXT under a number without a decoder is refused (log 5). -/
theorem exec_decNext_missing {s : State} {k : Nat} (h : s.decoders[k]? = none) :
    exec (.decNext k) s = .refused .noSuchInstance := by
  simp [exec, execDecNext, h]

/-- ENC.NEXT of a failed encoder is refused (60_exceptions.md R86). -/
theorem exec_encNext_failed {s : State} {k : Nat} {e : Encoder} (h : s.encoders[k]? = some e) (hf : e.failed = true) :
    exec (.encNext k) s = .refused .failedInstance := by
  simp [exec, execEncNext, h, Instance.admitted, hf]

/-- DEC.NEXT of a failed decoder is refused (60_exceptions.md R86). -/
theorem exec_decNext_failed {s : State} {k : Nat} {d : Decoder} (h : s.decoders[k]? = some d) (hf : d.failed = true) :
    exec (.decNext k) s = .refused .failedInstance := by
  simp [exec, execDecNext, h, Instance.admitted, hf]

/-- Settles O22: admission comes before the pull. -/
theorem pullOfAFailedInstanceIsRefused : Obligations.PullOfAFailedInstanceIsRefused := fun _ _ =>
  ⟨fun _ => exec_encNext_failed, fun _ => exec_decNext_failed⟩

/-- ENC.NEXT is refused of a missing and of a failed encoder, and completes of any other. -/
theorem exec_encNext_cases (k : Nat) (s : State) :
    (s.encoders[k]? = none ∧ exec (.encNext k) s = .refused .noSuchInstance) ∨
    (∃ e, s.encoders[k]? = some e ∧ e.failed = true ∧ exec (.encNext k) s = .refused .failedInstance) ∨
    (∃ e t, s.encoders[k]? = some e ∧ e.failed = false ∧ exec (.encNext k) s = .next t) := by
  cases he : s.encoders[k]? with
  | none => exact .inl ⟨rfl, exec_encNext_missing he⟩
  | some e =>
    cases hf : e.failed with
    | true => exact .inr (.inl ⟨e, rfl, hf, exec_encNext_failed he hf⟩)
    | false => exact .inr (.inr ⟨e, _, rfl, hf, execEncNext_admitted he hf⟩)

/-- DEC.NEXT is refused of a missing and of a failed decoder, and completes of any other. -/
theorem exec_decNext_cases (k : Nat) (s : State) :
    (s.decoders[k]? = none ∧ exec (.decNext k) s = .refused .noSuchInstance) ∨
    (∃ d, s.decoders[k]? = some d ∧ d.failed = true ∧ exec (.decNext k) s = .refused .failedInstance) ∨
    (∃ d t, s.decoders[k]? = some d ∧ d.failed = false ∧ exec (.decNext k) s = .next t) := by
  cases hd : s.decoders[k]? with
  | none => exact .inl ⟨rfl, exec_decNext_missing hd⟩
  | some d =>
    cases hf : d.failed with
    | true => exact .inr (.inl ⟨d, rfl, hf, exec_decNext_failed hd hf⟩)
    | false => exact .inr (.inr ⟨d, _, rfl, hf, execDecNext_admitted hd hf⟩)

/-- When ENC.NEXT is refused, and under which name. -/
theorem exec_encNext_refused_iff {k : Nat} {s : State} {r : Refusal} :
    exec (.encNext k) s = .refused r ↔
      (s.encoders[k]? = none ∧ r = .noSuchInstance) ∨
      ∃ e, s.encoders[k]? = some e ∧ e.failed = true ∧ r = .failedInstance := by
  rcases exec_encNext_cases k s with ⟨he, hx⟩ | ⟨e, he, hf, hx⟩ | ⟨e, t, he, hf, hx⟩
  · simpa [hx, he] using eq_comm
  · simpa [hx, he, hf] using eq_comm
  · simp [hx, he, hf]

/-- When DEC.NEXT is refused, and under which name. -/
theorem exec_decNext_refused_iff {k : Nat} {s : State} {r : Refusal} :
    exec (.decNext k) s = .refused r ↔
      (s.decoders[k]? = none ∧ r = .noSuchInstance) ∨
      ∃ d, s.decoders[k]? = some d ∧ d.failed = true ∧ r = .failedInstance := by
  rcases exec_decNext_cases k s with ⟨hd, hx⟩ | ⟨d, hd, hf, hx⟩ | ⟨d, t, hd, hf, hx⟩
  · simpa [hx, hd] using eq_comm
  · simpa [hx, hd, hf] using eq_comm
  · simp [hx, hd, hf]

/-- Only a pull is ever refused. -/
theorem eq_pull_of_exec_refused {i : Instr} {s : State} {r : Refusal} (h : exec i s = .refused r) :
    (∃ k, i = .encNext k) ∨ ∃ k, i = .decNext k := by
  cases i with
  | encNext k => exact .inl ⟨k, rfl⟩
  | decNext k => exact .inr ⟨k, rfl⟩
  | getParity | encodeNibble | extractData | extractParity | encNew | correct | decode1 | decNew => cases h

/-- No operation answers the host's fault outcome (log 7). -/
theorem exec_ne_fault (i : Instr) (s : State) (f : Fault) : exec i s ≠ .fault f := by
  cases i with
  | encNext k => rcases exec_encNext_cases k s with ⟨-, hx⟩ | ⟨e, -, -, hx⟩ | ⟨e, t, -, -, hx⟩ <;> simp [hx]
  | decNext k => rcases exec_decNext_cases k s with ⟨-, hx⟩ | ⟨d, -, -, hx⟩ | ⟨d, t, -, -, hx⟩ <;> simp [hx]
  | getParity | encodeNibble | extractData | extractParity | encNew | correct | decode1 | decNew => nofun

/-! ## What a step does -/

section Step

variable {s : State} {word : List Byte} {later : List (List Byte)}

/-- With no request a step changes nothing (60_exceptions.md R90, R96). -/
theorem step_idle (h : s.pending = []) : step s = .next s := by
  simp [step, h]

/-- With a request that names an operation a step carries it out. -/
theorem step_request {i : Instr} {rest : List Byte} (h : s.pending = word :: later)
    (hd : decodeRequest word = .ok i rest) : step s = exec i (s.withPending later) := by
  simp [step, h, hd]

/-- With a request that names no operation a step is refused (log 1). -/
theorem step_badRequest {why : DecodeError} (h : s.pending = word :: later) (hd : decodeRequest word = .reject why) :
    step s = .refused (.badRequest why) := by
  simp [step, h, hd]

end Step

/-- Everything a step can do. -/
theorem step_cases (s : State) :
    (s.pending = [] ∧ step s = .next s) ∨
    ∃ word later, s.pending = word :: later ∧
      ((∃ why, decodeRequest word = .reject why ∧ step s = .refused (.badRequest why)) ∨
        ∃ i rest, decodeRequest word = .ok i rest ∧ step s = exec i (s.withPending later)) := by
  cases hp : s.pending with
  | nil => exact .inl ⟨rfl, step_idle hp⟩
  | cons word later =>
    refine .inr ⟨word, later, rfl, ?_⟩
    cases hd : decodeRequest word with
    | reject why => exact .inl ⟨why, rfl, step_badRequest hp hd⟩
    | ok i rest => exact .inr ⟨i, rest, rfl, step_request hp hd⟩

/-- Settles O34: the step's own cases; a table word is put at the head of a queue that is as before once it is taken. -/
theorem stepRunsTheRequestedOperation : Obligations.StepRunsTheRequestedOperation := by
  refine ⟨fun s i word rest later hp hd _ => step_request hp hd, fun s => step_idle, fun s nbits w i h => ?_⟩
  obtain ⟨rest, hd⟩ := decodeRequest_of_decodeTableWord h
  exact step_request (s := s.withFetchWord nbits w) rfl hd

/-- Settles O32: an idle step and a refused request are no faults, and no operation answers one. -/
theorem noStepEndsInAFault : Obligations.NoStepEndsInAFault := by
  intro s f
  rcases step_cases s with ⟨-, hs⟩ | ⟨word, later, -, ⟨why, -, hs⟩ | ⟨i, rest, -, hs⟩⟩ <;> rw [hs]
  · nofun
  · nofun
  · exact exec_ne_fault i _ f

/-- Settles O33: a step is refused for its request or by the operation it carries out, which is then a pull. -/
theorem stepIsRefusedExactlyWhen : Obligations.StepIsRefusedExactlyWhen := by
  intro s r
  constructor
  · intro h
    rcases step_cases s with ⟨-, hs⟩ | ⟨word, later, hp, hs⟩
    · simp [hs] at h
    · refine ⟨word, later, hp, ?_⟩
      rcases hs with ⟨why, hd, hs⟩ | ⟨i, rest, hd, hs⟩ <;> rw [hs] at h
      · exact .inl ⟨why, hd, (Outcome.refused.inj h).symm⟩
      · obtain ⟨k, rfl⟩ | ⟨k, rfl⟩ := eq_pull_of_exec_refused h
        · exact .inr (.inl ⟨k, rest, hd, (exec_encNext_refused_iff (s := s.withPending later)).mp h⟩)
        · exact .inr (.inr ⟨k, rest, hd, (exec_decNext_refused_iff (s := s.withPending later)).mp h⟩)
  · rintro ⟨word, later, hp, ⟨why, hd, rfl⟩ | ⟨k, rest, hd, h⟩ | ⟨k, rest, hd, h⟩⟩
    · exact step_badRequest hp hd
    · exact (step_request hp hd).trans (exec_encNext_refused_iff.mpr h)
    · exact (step_request hp hd).trans (exec_decNext_refused_iff.mpr h)

/-! ## A failed instance -/

/-- A pull that raises does so with nothing buffered and nothing read, sets the mark and records the event
(60_exceptions.md R86). -/
theorem Encoder.Answers.of_raised {v : CodecVariant} {e e' : Encoder} {why : Fault} (h : e.Answers v (.raised why) e') :
    e.encBuf = none ∧ e' = ⟨e.pulled e.source.pos true (.raised why), none⟩ := by
  obtain ⟨⟨-, rfl⟩, hresult⟩ := h
  rcases pullEncoder_cases v e with ⟨c, -, hp⟩ | ⟨x, -, -, hp⟩ | ⟨-, -, -, hp⟩ | ⟨hb, -, -, hp⟩ <;>
    rw [hp] at hresult <;> cases hresult
  exact ⟨hb, by rw [Encoder.afterPull, hp, hb]; rfl⟩

/-- A pull that raises sets the mark and records the event (60_exceptions.md R86). -/
theorem Decoder.Answers.of_raised {cfg : Config} {d d' : Decoder} {why : Fault} (h : d.Answers cfg (.raised why) d') :
    ∃ p, d' = ⟨d.pulled p true (.raised why)⟩ := by
  obtain ⟨⟨-, rfl⟩, hresult⟩ := h
  rcases pullDecoder_cases cfg d.toInstance with ⟨b0, b1, -, -, hp⟩ | ⟨-, -, hp⟩ | ⟨-, -, hp⟩ | ⟨-, -, hp⟩ |
    ⟨-, -, -, hp⟩ | ⟨-, -, -, hp⟩ <;> rw [hp] at hresult <;> cases hresult <;>
    exact ⟨_, by rw [Decoder.afterPull, hp]; rfl⟩

/-- An instance of which no pull can make anything stays as it is. -/
theorem ListBecomes.getElem?_of_not_pulledTo {α : Type} {fresh : Source → α} {PulledTo : α → α → Prop}
    {target : Nat → Prop} {l l' : List α} (h : ListBecomes fresh PulledTo target l l') {k : Nat} {a : α}
    (ha : l[k]? = some a) (hp : ∀ a', ¬ PulledTo a a') : l'[k]? = some a :=
  (h.getElem? ha).resolve_right fun ⟨_, a', _, ha'⟩ => hp a' ha'

/-- Settles O21: a raise sets the mark and yields nothing, a pull of a marked instance is refused, and no other operation
changes an instance. -/
theorem raisingAPullFailsTheInstanceForGood : Obligations.RaisingAPullFailsTheInstanceForGood := by
  refine ⟨fun s t k why h hraised => ?_, fun s t k why h hraised => ?_, fun s t i h => ?_⟩
  · obtain ⟨e, e', r, he, hans, rfl⟩ := exec_encNext_next h
    obtain rfl : r = .raised why := by simpa using hraised
    obtain ⟨hb, rfl⟩ := hans.of_raised
    have hget := List.getElem?_set_self (a := (⟨e.pulled e.source.pos true (.raised why), none⟩ : Encoder))
      (List.getElem?_eq_some_iff.mp he).1
    exact ⟨e, _, he, hget, by simp [Instance.pulled], rfl, hb, rfl, exec_encNext_failed hget rfl⟩
  · obtain ⟨d, d', r, hd, hans, rfl⟩ := exec_decNext_next h
    obtain rfl : r = .raised why := by simpa using hraised
    obtain ⟨p, rfl⟩ := hans.of_raised
    have hget := List.getElem?_set_self (a := (⟨d.pulled p true (.raised why)⟩ : Decoder))
      (List.getElem?_eq_some_iff.mp hd).1
    exact ⟨d, _, hd, hget, by simp [Instance.pulled], rfl, exec_decNext_failed hget rfl⟩
  · obtain ⟨-, henc, hdec⟩ := exec_instancesBecome h
    refine ⟨fun k e he hf => henc.getElem?_of_not_pulledTo he ?_, fun k d hd hf => hdec.getElem?_of_not_pulledTo hd ?_⟩
    · exact fun e' hp => by simp [hp.not_failed] at hf
    · exact fun d' hp => by simp [hp.not_failed] at hf

/-! ## An instance after End -/

/-- A pull that answers End leaves an encoder that is not failed, has nothing buffered and stands at the end of a source that
answers End (60_exceptions.md R87). -/
theorem Encoder.Answers.of_endOfStream {v : CodecVariant} {e e' : Encoder} (h : e.Answers v .endOfStream e') :
    e'.failed = false ∧ e'.encBuf = none ∧ e'.source.bytes.length ≤ e'.source.pos ∧ e'.source.term = .endOfStream := by
  obtain ⟨⟨hf, rfl⟩, hresult⟩ := h
  rcases pullEncoder_cases v e with ⟨c, -, hp⟩ | ⟨x, -, -, hp⟩ | ⟨hb, hl, ht, hp⟩ | ⟨-, -, -, hp⟩ <;>
    rw [hp] at hresult <;> cases hresult
  rw [Encoder.afterPull, hp]
  exact ⟨hf, hb, hl, ht⟩

/-- A pull that answers End leaves a decoder that is not failed and stands at the end of a source that answers End, with an
unpaired byte discarded or without one (60_exceptions.md R87, 42_decoder.md R76). -/
theorem Decoder.Answers.of_endOfStream {cfg : Config} {d d' : Decoder} (h : d.Answers cfg .endOfStream d') :
    d'.failed = false ∧ d'.source.bytes.length ≤ d'.source.pos ∧ d'.source.term = .endOfStream := by
  obtain ⟨⟨hf, rfl⟩, hresult⟩ := h
  rcases pullDecoder_cases cfg d.toInstance with ⟨b0, b1, -, -, hp⟩ | ⟨hl, ht, hp⟩ | ⟨-, -, hp⟩ | ⟨-, -, hp⟩ |
    ⟨-, -, -, hp⟩ | ⟨hl, ht, -, hp⟩ <;> rw [hp] at hresult <;> cases hresult <;> rw [Decoder.afterPull, hp]
  · exact ⟨hf, hl, ht⟩
  · exact ⟨hf, hl.ge, ht⟩

/-- Settles O31: an instance that has answered End stands where a pull answers End and changes nothing but the record. -/
theorem endIsAnsweredAgain : Obligations.EndIsAnsweredAgain := by
  refine ⟨fun s t k h hend => ?_, fun s t k h hend => ?_⟩
  · obtain ⟨e, e', r, he, hans, rfl⟩ := exec_encNext_next h
    obtain rfl : r = .endOfStream := by simpa using hend
    obtain ⟨hf, hb, hl, ht⟩ := hans.of_endOfStream
    have hget := List.getElem?_set_self (a := e') (List.getElem?_eq_some_iff.mp he).1
    exact ⟨e', _, _, hget, hf, hb, exec_encNext_of_pullEncoder hget hf (pullEncoder_end hb hl ht), rfl,
      State.afterEncPull_get (List.getElem?_eq_some_iff.mp hget).1 e' .endOfStream, rfl⟩
  · obtain ⟨d, d', r, hd, hans, rfl⟩ := exec_decNext_next h
    obtain rfl : r = .endOfStream := by simpa using hend
    obtain ⟨hf, hl, ht⟩ := hans.of_endOfStream
    have hget := List.getElem?_set_self (a := d') (List.getElem?_eq_some_iff.mp hd).1
    exact ⟨d', _, _, hget, hf, exec_decNext_of_pullDecoder hget hf (pullDecoder_end hl ht), rfl,
      State.afterDecPull_get (List.getElem?_eq_some_iff.mp hget).1 d' .endOfStream, rfl⟩

end Sys2Proof.Machine

/-! PROOFS. Every run around a finite source ends (70_reset_and_hazards.md R110): each pull that yields a byte lowers a count
of the bytes still to be yielded. -/

namespace Sys2Proof.Machine

/-- Pulls end when every pull either gives a final result or lowers a count: at most the count of them come before the final
one. -/
theorem Pulls.exists_final {α : Type} {Answers : α → PullResult → α → Prop} {Live : α → Prop} {Final : PullResult → Prop}
    {count : α → Nat}
    (hpull : ∀ a, Live a → ∃ r b, Answers a r b ∧ (Final r ∨ Live b ∧ count b < count a)) {a : α} (ha : Live a) :
    ∃ rs r b, Pulls Answers a (rs ++ [r]) b ∧ Final r ∧ rs.length ≤ count a := by
  induction hn : count a using Nat.strong_induction_on generalizing a with
  | _ n ih =>
    obtain ⟨r, b, hans, hfinal | ⟨hb, hlt⟩⟩ := hpull a ha
    · exact ⟨[], r, b, .cons hans (.nil b), hfinal, Nat.zero_le n⟩
    · obtain ⟨rs, last, c, hpulls, hfinal, hlen⟩ := ih (count b) (hn ▸ hlt) hb rfl
      exact ⟨r :: rs, last, c, .cons hans hpulls, hfinal, by rw [List.length_cons]; omega⟩

/-- The codewords that an encoder around a finite source has still to yield. -/
def Encoder.codewordsLeft (e : Encoder) : Nat := 2 * (e.source.bytes.length - e.source.pos) + e.bufValid.toNat

/-- The bytes that a decoder around a finite source has still to yield. -/
def Decoder.bytesLeft (d : Decoder) : Nat := (d.source.bytes.length - d.source.pos) / 2

/-- A pull of an encoder around a finite source ends its run or yields one of the codewords left. -/
theorem Encoder.answers_final_or_fewer_left (v : CodecVariant) {e : Encoder} (h : e.failed = false ∧ e.source.ends = true) :
    ∃ r e', e.Answers v r e' ∧ ((r = .endOfStream ∨ r = .raised .sourceReadError) ∨
      (e'.failed = false ∧ e'.source.ends = true) ∧ e'.codewordsLeft < e.codewordsLeft) := by
  obtain ⟨hf, hends⟩ := h
  rcases pullEncoder_cases v e with ⟨c, hb, -⟩ | ⟨x, hb, hx, -⟩ | ⟨-, -, -, hp⟩ | ⟨-, -, -, hp⟩
  · refine ⟨_, _, answers_full hf hb, .inr ⟨⟨hf, hends⟩, ?_⟩⟩
    simp [codewordsLeft, bufValid, hb]
  · refine ⟨_, _, answers_byte hf hb hx, .inr ⟨⟨hf, hends⟩, ?_⟩⟩
    have hlt := Source.lt_length_of_byteAt hx hends
    simp only [codewordsLeft, bufValid, hb, Instance.yielding_source, Option.isSome_some, Option.isSome_none,
      Bool.toNat_true, Bool.toNat_false]
    omega
  · exact ⟨_, _, answers_of_pullEncoder hf hp, .inl (.inl rfl)⟩
  · exact ⟨_, _, answers_of_pullEncoder hf hp, .inl (.inr rfl)⟩

/-- A pull of a decoder around a finite source ends its run or yields one of the bytes left. -/
theorem Decoder.answers_final_or_fewer_left (cfg : Config) {d : Decoder} (h : d.failed = false ∧ d.source.ends = true) :
    ∃ r d', d.Answers cfg r d' ∧ ((r = .endOfStream ∨ ∃ why, r = .raised why) ∨
      (d'.failed = false ∧ d'.source.ends = true) ∧ d'.bytesLeft < d.bytesLeft) := by
  obtain ⟨hf, hends⟩ := h
  rcases pullDecoder_cases cfg d.toInstance with ⟨b0, b1, h0, h1, -⟩ | ⟨-, -, hp⟩ | ⟨-, -, hp⟩ | ⟨-, -, hp⟩ |
    ⟨-, -, -, hp⟩ | ⟨-, -, -, hp⟩
  · refine ⟨_, _, answers_pair hf h0 h1, .inr ⟨⟨hf, hends⟩, ?_⟩⟩
    have hlt := Source.lt_length_of_byteAt h1 hends
    simp only [bytesLeft, Instance.yielding_source]
    omega
  · exact ⟨_, _, answers_of_pullDecoder hf hp, .inl (.inl rfl)⟩
  · exact ⟨_, _, answers_of_pullDecoder hf hp, .inl (.inr ⟨_, rfl⟩)⟩
  · exact ⟨_, _, answers_of_pullDecoder hf hp, .inl (.inr ⟨_, rfl⟩)⟩
  · exact ⟨_, _, answers_of_pullDecoder hf hp, .inl (.inr ⟨_, rfl⟩)⟩
  · exact ⟨_, _, answers_of_pullDecoder hf hp, .inl (.inl rfl)⟩

/-- Settles O42: by the count of what is left to yield, the pulls of each kind come to a final result, and the machine
carries them out. -/
theorem everyRunEndsInTime : Obligations.EveryRunEndsInTime := by
  refine ⟨fun s k e he hf hends => ?_, fun s k d hd hf hends => ?_⟩
  · obtain ⟨rs, r, e', hpulls, hfinal, hlen⟩ :=
      Pulls.exists_final (fun _ => Encoder.answers_final_or_fewer_left s.cfg.variant) ⟨hf, hends⟩
    refine ⟨(rs ++ [r]).length, _, ?_, runInstrs_encNext he hpulls List.getLast?_concat, ?_, by simp⟩
    · simpa [Encoder.codewordsLeft] using hlen
    · simpa using hfinal
  · obtain ⟨rs, r, d', hpulls, hfinal, hlen⟩ :=
      Pulls.exists_final (fun _ => Decoder.answers_final_or_fewer_left s.cfg) ⟨hf, hends⟩
    refine ⟨(rs ++ [r]).length, _, ?_, runInstrs_decNext hd hpulls List.getLast?_concat, ?_, by simp⟩
    · simpa [Decoder.bytesLeft] using hlen
    · simpa using hfinal

end Sys2Proof.Machine

/-! PROOFS. The variant low7, a hypothesis of the spec and none of its rules (92_eei_decisions.md D10, appendix; log 10): its
layout and mask bit by bit, what the operations answer in it, and that it recovers every single-bit error. -/

namespace Sys2Proof.Machine

/-! ## The layout and the mask -/

/-- The layout of a codeword in the variant low7, bit by bit, for any nibble and any parity triple. -/
theorem scatter_low7_getLsbD (n : Nib) (p : Par) :
    (scatter .low7 n p).getLsbD 7 = false ∧ (scatter .low7 n p).getLsbD 6 = n.getLsbD 3 ∧
      (scatter .low7 n p).getLsbD 5 = n.getLsbD 2 ∧ (scatter .low7 n p).getLsbD 4 = n.getLsbD 1 ∧
      (scatter .low7 n p).getLsbD 3 = p.getLsbD 2 ∧ (scatter .low7 n p).getLsbD 2 = n.getLsbD 0 ∧
      (scatter .low7 n p).getLsbD 1 = p.getLsbD 1 ∧ (scatter .low7 n p).getLsbD 0 = p.getLsbD 0 := by
  simp [scatter, BitVec.getLsbD_eq_getElem]

/-- The data bits of a byte in the variant low7, one by one. -/
theorem gatherData_low7_getLsbD (b : Byte) :
    (gatherData .low7 b).getLsbD 3 = b.getLsbD 6 ∧ (gatherData .low7 b).getLsbD 2 = b.getLsbD 5 ∧
      (gatherData .low7 b).getLsbD 1 = b.getLsbD 4 ∧ (gatherData .low7 b).getLsbD 0 = b.getLsbD 2 := by
  simp [gatherData, BitVec.getLsbD_eq_getElem]

/-- The parity bits of a byte in the variant low7, one by one. -/
theorem gatherParity_low7_getLsbD (b : Byte) :
    (gatherParity .low7 b).getLsbD 2 = b.getLsbD 3 ∧ (gatherParity .low7 b).getLsbD 1 = b.getLsbD 1 ∧
      (gatherParity .low7 b).getLsbD 0 = b.getLsbD 0 := by
  simp [gatherParity, BitVec.getLsbD_eq_getElem]

/-- The flip mask of low7 has the one bit diff - 1 set, and none for the syndrome zero. -/
theorem flipMask_low7_getLsbD (diff : Par) (i : Nat) : (flipMask .low7 diff).getLsbD i = decide (i + 1 = diff.toNat) := by
  have hdiff : diff.toNat < 8 := diff.isLt
  rw [flipMask, Bool.eq_iff_iff]
  simp only [BitVec.getLsbD_ushiftRight, BitVec.getLsbD_shiftLeft, BitVec.getLsbD_one, Bool.and_eq_true,
    Bool.not_eq_true', decide_eq_true_eq, decide_eq_false_iff_not]
  omega

/-- Settles O5, operation by operation, by the bits of the layout and of the mask; DECODE1 is its four steps. -/
theorem lowSevenVariantOfTheCodec : Obligations.LowSevenVariantOfTheCodec := by
  intro s hv
  refine ⟨fun n => ⟨encodeNib .low7 n, hv ▸ exec_encodeNibble n s, scatter_low7_getLsbD n (getParity n)⟩,
    fun b => ⟨extractData .low7 b, hv ▸ exec_extractData b s, gatherData_low7_getLsbD b⟩,
    fun b => ⟨extractParity .low7 b, hv ▸ exec_extractParity b s, gatherParity_low7_getLsbD b⟩,
    fun b expected got => ⟨correctByte .low7 b expected got, hv ▸ exec_correct b expected got s, fun i _ => ?_⟩,
    fun b => ⟨_, _, _, _, _, exec_extractParity b s, exec_extractData b s, exec_getParity _ s, exec_correct b _ _ s,
      exec_extractData _ s, exec_decode1 b s⟩⟩
  rw [correctByte, BitVec.getLsbD_xor, flipMask_low7_getLsbD]

/-! ## Single-bit errors -/

/-- The syndrome of an inverted bit of the low seven is its position plus one, so the mask is the error itself. -/
theorem flipMask_syndrome_low7_singleBit : ∀ i < 7, flipMask .low7 (syndrome .low7 (1#8 <<< i)) = 1#8 <<< i := by
  decide

/-- No single-bit error changes the nibble: the mask takes an error in the low seven bits away, and bit 7 is no bit of the
layout. -/
theorem decodeByte_low7_singleBit {i : Nat} (hi : i < 8) : decodeByte .low7 (1#8 <<< i) = 0#4 := by
  obtain hlow | rfl : i < 7 ∨ i = 7 := by omega
  · rw [decodeByte_eq, flipMask_syndrome_low7_singleBit i hlow, BitVec.xor_self]
  · decide

/-- Settles O16: what an error makes of the nibble is independent of the codeword, and a single-bit error makes nothing of
it. -/
theorem lowSevenRecoversEverySingleBitError : Obligations.LowSevenRecoversEverySingleBitError := by
  intro n s hv
  refine ⟨encodeNib .low7 n, hv ▸ exec_encodeNibble n s, ?_, fun i hi => ?_⟩
  · rw [exec_decode1, hv, decodeByte_encodeNib]
  · rw [exec_decode1, hv, decodeByte_encodeNib_xor, decodeByte_low7_singleBit hi, BitVec.xor_zero]

end Sys2Proof.Machine
